-- ==== Sys2Proof/Word.lean ====
section
/-! DEFINITION. The bit vectors of the block: the event code on `ev` (R70, R71) and the accumulator word (R27, R28). -/

namespace Sys2Proof

/-- A code on the 3-bit event input `ev` (R70). -/
abbrev EventCode := BitVec 3

/-- A 26-bit shift accumulator (R8 row `AW`, R27, R28). -/
abbrev Acc := BitVec 26

end Sys2Proof
end

