-- ==== Sys2Proof/Config.lean ====
section
/-! DEFINITION. The parameters a model takes (R8). They are fixed for a run; State carries them, and no event writes them. -/

namespace Sys2Proof

/-- The parameters of R8 that rules of the block read. -/
structure Config where
  /-- `CAP`: the frame buffer's capacity in bits. -/
  cap : Nat
  /-- `T_WAIT`: the inactivity window, in ticks. -/
  tWait : Nat
  /-- `WDW`: the width of the watchdog counter, in bits. -/
  wdw : Nat
deriving DecidableEq, Repr

/-- The spec's default values (R8; D5, D7): CAP 100, T_WAIT 5000000, WDW 32. -/
def Config.reference : Config := ⟨100, 5000000, 32⟩

/-- `CW = ceil(log2(CAP + 1))`, the width of COUNT and of `bit_count` (R8). -/
def Config.cw (c : Config) : Nat := Nat.clog 2 (c.cap + 1)

/-- `TICK_PERIOD` (R8, D27), OPEN: the real time between two TICK events, in a unit of time that stays unnamed. It has no body,
so that nothing can be proved of its value, and no rule of the block reads it (R239). Log entry 10. -/
opaque Config.tickPeriod : Nat

end Sys2Proof
end

