-- ==== Sys2Proof/Syntax.lean ====
section
/-! DEFINITION. The instructions of the block: its input events (R72), one constructor for each row of spec/opcode_table.json. No
event has an operand (R71). -/

namespace Sys2Proof

/-- The eight codes of the opcode map (R72), in the table's order. -/
inductive Instr where
  /-- 000: a step with no event (R180). -/
  | nop
  /-- 001: a pulse on data line 0 (R100). -/
  | pulse0
  /-- 010: a pulse on data line 1 (R101). -/
  | pulse1
  /-- 011: one count of the inactivity watchdog (R120). -/
  | tick
  /-- 100: the consumer asks whether a frame is ready (R121). -/
  | ready
  /-- 101: decode the frame, emit its record, clear the frame (R141). -/
  | decode
  /-- 110: the reserved code, which has no meaning (R73). -/
  | reserved
  /-- 111: the reset configuration (R181). -/
  | reset
deriving DecidableEq, Repr

end Sys2Proof
end

