-- ==== Sys2Proof/WellFormed.lean ====
section
/-! DEFINITION. The checks on what comes from outside the block: an event it may be sent (R73), and the constraints of the
parameters (R8, R231). -/

namespace Sys2Proof

/-- An event the block may be sent: every code but the reserved one ("must not be sent `110`", R73). -/
def Instr.wellFormed : Instr → Bool
  | .nop => true
  | .pulse0 => true
  | .pulse1 => true
  | .tick => true
  | .ready => true
  | .decode => true
  | .reserved => false
  | .reset => true

/-- The constraints of R8: `26 <= CAP`, `1 <= T_WAIT` and `T_WAIT < 2^WDW`. -/
def Config.wellFormed (c : Config) : Bool :=
  decide (26 ≤ c.cap) && decide (1 ≤ c.tWait) && decide (c.tWait < 2 ^ c.wdw)

end Sys2Proof
end

