-- ==== Sys2Proof/Decode.lean ====
section
/-! DEFINITION. Decoding an event code (R71, R72), total on every word and rejecting by name a word that is no 3-bit code, and after
it the encoder. -/

namespace Sys2Proof

/-- Why a word is no event of the block. -/
inductive DecodeError where
  /-- The word sets a bit above `ev[2]`: the event input is 3 bits wide (R70), so it is no code (log entry 9). Safe. -/
  | notAnEventCode (w : Nat)
deriving DecidableEq, Repr

/-- The opcode map read on `ev[2]`, `ev[1]`, `ev[0]` (R72): every one of the eight codes has its own row. -/
def decode (ev : EventCode) : Instr :=
  match ev.getLsbD 2, ev.getLsbD 1, ev.getLsbD 0 with
  | false, false, false => .nop
  | false, false, true => .pulse0
  | false, true, false => .pulse1
  | false, true, true => .tick
  | true, false, false => .ready
  | true, false, true => .decode
  | true, true, false => .reserved
  | true, true, true => .reset

/-- Decode a word of any size: the event of its three low bits, where it has no other bit set. -/
def decodeWord (w : Nat) : Except DecodeError Instr :=
  if w < 8 then .ok (decode (BitVec.ofNat 3 w)) else .error (.notAnEventCode w)

/-- A row of the opcode map: it matches a code when `code AND mask = pattern` (R72). -/
structure OpcodeRow where
  mask : EventCode
  pattern : EventCode
  instr : Instr
deriving DecidableEq, Repr

/-- The opcode map as the spec lists it (R72, spec/opcode_table.json); every row has the mask 111. -/
def opcodeTable : List OpcodeRow :=
  [ ⟨0b111#3, 0b000#3, .nop⟩,
    ⟨0b111#3, 0b001#3, .pulse0⟩,
    ⟨0b111#3, 0b010#3, .pulse1⟩,
    ⟨0b111#3, 0b011#3, .tick⟩,
    ⟨0b111#3, 0b100#3, .ready⟩,
    ⟨0b111#3, 0b101#3, .decode⟩,
    ⟨0b111#3, 0b110#3, .reserved⟩,
    ⟨0b111#3, 0b111#3, .reset⟩ ]

/-- Whether a row matches a code (R72). -/
def rowMatches (ev : EventCode) (r : OpcodeRow) : Bool := ev &&& r.mask == r.pattern

/-- The instruction the decoder reads from the `nbits` low bits of a word, numbered as spec/opcode_table.json numbers them. -/
def decodeTableWord (nbits w : Nat) : Option Instr :=
  match decodeWord (w % 2 ^ nbits) with
  | .ok i => some i
  | .error _ => none

/-- The code of an event (R72). -/
def encode : Instr → EventCode
  | .nop => 0b000#3
  | .pulse0 => 0b001#3
  | .pulse1 => 0b010#3
  | .tick => 0b011#3
  | .ready => 0b100#3
  | .decode => 0b101#3
  | .reserved => 0b110#3
  | .reset => 0b111#3

/-- The encoding of a trace: the sequence of its 3-bit codes, first event first (R77). -/
def encodeTrace (tr : List Instr) : List EventCode := tr.map encode

end Sys2Proof
end

