-- ==== Sys2Proof/Machine/State.lean ====
section
/-! DEFINITION. The state of the block (R20) with its parameters (R8) and its ports (R70), why a step can stop, and the state after
reset (R31). -/

namespace Sys2Proof.Machine

/-- Why the machine stops with an error. The block itself has no fault (R200). -/
inductive Fault where
  /-- A frame-buffer cell that holds no value was read (R26, U1). Raised by DECODE's snapshot; no run reaches it, since no rule reads
  a cell at index `COUNT` or above. Safe: the model stops where the block would go on. -/
  | unwrittenCell (i : Nat)
deriving DecidableEq, Repr

/-- Why the model has no meaning for what it was asked. -/
inductive Refusal where
  /-- An instruction whose arm in Dispatch has no meaning yet; raised by no arm. Safe. -/
  | notModelled (mnemonic : String)
  /-- The reserved code 110 (R73, R203, U3). Raised by the RESERVED event. Safe: nothing is proved of a run that sends it. -/
  | reservedCode
  /-- A step was asked for and no agent has an event (R240: a run ends where its trace ends). Raised by `step`. Safe. -/
  | traceEnded
  /-- The `card` port was sampled in a step whose event is not DECODE (R30, D24, U2). Raised by `sampleCard`. Safe. -/
  | cardNotDriven
deriving DecidableEq, Repr

/-- The frame buffer BUF (R26), the block's only storage (R50): the written cells as (index, bit) pairs, indexes strictly rising. A
cell that is not listed is unwritten and holds no value. Log entry 7. -/
abbrev Memory := List (Nat × Bool)

/-- The record DECODE drives on `card` (R30, R140). `bitCount` has `CW` bits (log entry 4). -/
structure CardRecord where
  bitCount : Nat
  facilityCode : BitVec 8
  uniqueCode : BitVec 16
  compositeValue : BitVec 44
  hexValue : BitVec 26
  /-- The 26 characters, bit 25 the first (R30, D31). -/
  binaryDigits : BitVec 26
deriving DecidableEq, Repr

/-- What one step shows (R240) at the ports of R70. -/
structure Ports where
  /-- The event performed. -/
  event : Instr
  /-- The level `ready`, from the state before the event (R25). -/
  ready : Bool
  /-- What READY returned, in a READY step (R121). -/
  result : Option Bool
  /-- The record, in a DECODE step; not driven otherwise (R30, R141). -/
  card : Option CardRecord
deriving DecidableEq, Repr

/-- The six elements of R20, then the parameters and the interface of one step (INVENTORY.md, State). -/
structure State where
  /-- `COUNT` (R22). -/
  count : Nat
  /-- `BUF` (R26). -/
  buf : Memory
  /-- `ACC_A` (R27). -/
  accA : Acc
  /-- `ACC_B` (R28). -/
  accB : Acc
  /-- `WD` (R23). -/
  wd : Nat
  /-- `FIN` (R24). -/
  fin : Bool
  /-- The parameters (R8); no event writes them. Log entry 3. -/
  cfg : Config
  /-- The codes the agents have put on `ev` and that are not performed yet, first event first (R59, R77). Log entry 1. -/
  pending : List EventCode
  /-- The ports in the step just performed; none before the first step. Log entry 6. -/
  out : Option Ports
deriving DecidableEq, Repr

/-- Power-on with the parameters `c` and the trace `tr` (R230, R231): the reset configuration of R31. -/
def State.powerOn (c : Config) (tr : List EventCode) : State where
  count := 0
  buf := []
  accA := 0
  accB := 0
  wd := 0
  fin := true
  cfg := c
  pending := tr
  out := none

/-- The machine right after reset: the reset configuration of R31 with the spec's default parameters (R8) and no trace. -/
def State.reset : State := State.powerOn Config.reference []

end Sys2Proof.Machine
end

