-- ==== Sys2Proof/Machine/Flags.lean ====
section
/-! DEFINITION. The flags: the derived level `ready` (R25), the value the tick gives FIN (R120), and `card_valid` (R70). -/

namespace Sys2Proof.Machine

/-- The level `ready` of a state (R25): FIN = 1 and at least `MIN_LEN` = 26 bits (R8). -/
def State.ready (s : State) : Bool := s.fin && decide (26 ≤ s.count)

/-- Whether a watchdog value says that the window has elapsed: the tick that brings WD to 0 sets FIN (R24, R120). -/
def expired (w : Nat) : Bool := w == 0

/-- `card_valid` in the step just performed (R70). -/
def State.cardValid (s : State) : Bool :=
  match s.out with
  | some p => p.card.isSome
  | none => false

end Sys2Proof.Machine
end

