-- ==== Sys2Proof/Machine/Operands.lean ====
section
/-! DEFINITION. Events have no operands (R71); what an event works on is the frame and the accumulators. The values formed from them:
the fold (R10), the shift (R27, R28), and each field of the card record (R143 to R149, R154). -/

namespace Sys2Proof.Machine

/-- The MSB-first fold of R10: `fold([]) = 0`, `fold(s ++ [b]) = 2 * fold(s) + b`. -/
def fold (bits : List Bool) : Nat := bits.foldl (fun v b => 2 * v + b.toNat) 0

/-- `s[lo..hi]`: the bits of a frame at the indexes `lo` to `hi`. -/
def frameSlice (bits : List Bool) (lo hi : Nat) : List Bool := (bits.drop lo).take (hi + 1 - lo)

/-- `((ACC << 1) | b) mod 2^26` (R27, R28). -/
def shiftIn (a : Acc) (b : Bool) : Acc := (a <<< 1) ||| (BitVec.ofBool b).setWidth 26

/-- The facility code of a 26-bit frame (R143). -/
def facilityCode (bits : List Bool) : BitVec 8 := BitVec.ofNat 8 (fold (frameSlice bits 1 8))

/-- The unique code of a 26-bit frame (R144). -/
def uniqueCode (bits : List Bool) : BitVec 16 := BitVec.ofNat 16 (fold (frameSlice bits 9 24))

/-- The preamble of a 26-bit frame (R145): `PRE = 0x2004 | (ACC_A[21] << 1) | ACC_A[20]`. -/
def preamble (a : Acc) : BitVec 20 :=
  0x2004#20 ||| ((a.extractLsb' 21 1).setWidth 20 <<< 1) ||| (a.extractLsb' 20 1).setWidth 20

/-- The card data of a 26-bit frame (R146): `CD = (ACC_A[19:0] << 4) | ACC_B[3:0]`. -/
def cardData (a b : Acc) : BitVec 24 :=
  ((a.extractLsb' 0 20).setWidth 24 <<< 4) ||| (b.extractLsb' 0 4).setWidth 24

/-- `BIN = (PRE[1:0] << 24) | CD` (R148). -/
def binaryDigits (pre : BitVec 20) (cd : BitVec 24) : BitVec 26 :=
  ((pre.extractLsb' 0 2).setWidth 26 <<< 24) ||| cd.setWidth 26

/-- `COMP = (PRE << 24) | CD` (R147). -/
def compositeValue (pre : BitVec 20) (cd : BitVec 24) : BitVec 44 :=
  (pre.setWidth 44 <<< 24) ||| cd.setWidth 44

/-- The record of the bit count `n`, the fields FC and UC, and the composite's parts PRE and CD (R141); `HEX = BIN` (R149). -/
def recordOf (n : Nat) (fc : BitVec 8) (uc : BitVec 16) (pre : BitVec 20) (cd : BitVec 24) : CardRecord where
  bitCount := n
  facilityCode := fc
  uniqueCode := uc
  compositeValue := compositeValue pre cd
  hexValue := binaryDigits pre cd
  binaryDigits := binaryDigits pre cd

/-- The record of a frame (R141): the extracted fields for `FMT_LEN` = 26 bits (R8, R158), zero fields for any other count (R154). -/
def cardRecord (bits : List Bool) (n : Nat) (a b : Acc) : CardRecord :=
  if n = 26 then recordOf n (facilityCode bits) (uniqueCode bits) (preamble a) (cardData a b)
  else recordOf n 0 0 0 0

end Sys2Proof.Machine
end

