-- ==== Sys2Proof/Machine/Ops.lean ====
section
/-! DEFINITION. The operations the events share: the frame buffer's reads and writes (R26, R51), the append of a bit (R100, R101), the
watchdog's count (R120), the clears (R151, R181), the ports (R70) and the fetch of the next event. The block has no exception, no trap
entry and no trap return (R200), so there is no operation that takes one or returns from one. -/

namespace Sys2Proof.Machine

/-- BUF[i], or no value where the cell is unwritten (R26). -/
def Memory.read (i : Nat) : Memory → Option Bool
  | [] => none
  | (j, b) :: m => if i = j then some b else Memory.read i m

/-- `BUF[i] <- b` (R11, R51), keeping the indexes in order. -/
def Memory.write (i : Nat) (b : Bool) : Memory → Memory
  | [] => [(i, b)]
  | (j, c) :: m =>
    if i < j then (i, b) :: (j, c) :: m
    else if i = j then (i, b) :: m
    else (j, c) :: Memory.write i b m

/-- Every cell unwritten (R26, R31, R151). -/
def Memory.cleared : Memory := []

/-- The canonical form of the frame buffer: indexes strictly rising. -/
abbrev Memory.wf (m : Memory) : Prop := m.Pairwise (fun x y => x.1 < y.1)

/-- The cells at the indexes `i`, `i + 1`, ..., `len` of them, or the index of the first that holds no value. -/
def Memory.readBits (m : Memory) (i : Nat) : Nat → Except Nat (List Bool)
  | 0 => .ok []
  | len + 1 =>
    match Memory.read i m with
    | none => .error i
    | some b =>
      match Memory.readBits m (i + 1) len with
      | .ok bits => .ok (b :: bits)
      | .error j => .error j

/-- The snapshot `[BUF[0], ..., BUF[COUNT-1]]` that DECODE copies out (R58, R142). -/
def State.snapshot (s : State) : Except Nat (List Bool) := Memory.readBits s.buf 0 s.count

/-- An accepted bit (R100, R101): it is stored at COUNT, shifted into ACC_A below index 22 and into
ACC_B from there on (R27, R28, C1), and counted. -/
def State.appendBit (b : Bool) (s : State) : State :=
  { s with
    count := s.count + 1
    buf := Memory.write s.count b s.buf
    accA := if s.count < 22 then shiftIn s.accA b else s.accA
    accB := if s.count < 22 then s.accB else shiftIn s.accB b }

/-- A pulse is line activity, whether its bit is accepted or dropped (R104, R105): `WD <- T_WAIT`, `FIN <- 0`. -/
def State.activity (s : State) : State := { s with wd := s.cfg.tWait, fin := false }

/-- A pulse with the bit value `b` (R100, R101): the bit is dropped at capacity (R103). -/
def State.capture (b : Bool) (s : State) : State :=
  if s.count < s.cfg.cap then (s.appendBit b).activity else s.activity

/-- One count of the watchdog (R120). WD never goes below 0 and never wraps (R23; log entry 5). -/
def State.countDown (s : State) : State :=
  if s.fin then s else { s with wd := s.wd - 1, fin := expired (s.wd - 1) }

/-- The clear that ends a decode (R151): COUNT, the accumulators and every cell; WD and FIN stay. -/
def State.clearFrame (s : State) : State :=
  { s with count := 0, buf := Memory.cleared, accA := 0, accB := 0 }

/-- The reset configuration (R31, R181): the frame cleared, the watchdog idle. -/
def State.resetBlock (s : State) : State := { s.clearFrame with wd := 0, fin := true }

/-- `post` with the ports of the step that performed `i` from `pre` (R70, R240): `ready` is the level before the step (R25). -/
def State.drive (i : Instr) (result : Option Bool) (card : Option CardRecord) (pre post : State) : State :=
  { post with out := some ⟨i, pre.ready, result, card⟩ }

/-- What a consumer that samples `card` gets: the record in a DECODE step, and a refusal in any other (R30, D24, U2). -/
def State.sampleCard (s : State) : Host.Outcome CardRecord Fault Refusal :=
  match s.out with
  | some p =>
    match p.card with
    | some c => .next c
    | none => .refused .cardNotDriven
  | none => .refused .cardNotDriven

/-- The next code on `ev` and the state in which it is performed, where an agent has an event (R70, R77). -/
def State.fetch (s : State) : Option (EventCode × State) :=
  match s.pending with
  | [] => none
  | ev :: rest => some (ev, { s with pending := rest })

end Sys2Proof.Machine
end

