-- ==== Sys2Proof/Machine/Capture.lean ====
section
/-! DEFINITION. Bit capture: PULSE0 and PULSE1 (R100, R101). A pulse is never refused and never waits (R102, R107). -/

namespace Sys2Proof.Machine

/-- PULSE0 (R100): a pulse on data line 0 appends the bit 0. -/
def execPulse0 (s : State) : Host.Outcome State Fault Refusal :=
  .next (State.drive .pulse0 none none s (s.capture false))

/-- PULSE1 (R101): a pulse on data line 1 appends the bit 1. -/
def execPulse1 (s : State) : Host.Outcome State Fault Refusal :=
  .next (State.drive .pulse1 none none s (s.capture true))

end Sys2Proof.Machine
end

