-- ==== Sys2Proof/Machine/Control.lean ====
section
/-! DEFINITION. The control events: NOP and RESET (R180, R181), and the reserved code (R73). -/

namespace Sys2Proof.Machine

/-- NOP (R180): no state element is written. It is not a tick. -/
def execNop (s : State) : Host.Outcome State Fault Refusal :=
  .next (State.drive .nop none none s s)

/-- RESET (R181): the reset configuration of R31; no record is emitted for a frame it discards. -/
def execReset (s : State) : Host.Outcome State Fault Refusal :=
  .next (State.drive .reset none none s s.resetBlock)

/-- The reserved code 110 has no meaning: a model records a refusal (R73, R203). -/
def execReserved (_s : State) : Host.Outcome State Fault Refusal :=
  .refused .reservedCode

end Sys2Proof.Machine
end

