-- ==== Sys2Proof/Machine/FrameDecode.lean ====
section
/-! DEFINITION. The frame decoder: DECODE (R141). It checks neither `ready` (R155) nor parity (R156). -/

namespace Sys2Proof.Machine

/-- DECODE (R141): copy the frame out, drive its record, clear the frame. A frame cell that holds no value stops it (U1); no run
reaches that (R26). -/
def execDecode (s : State) : Host.Outcome State Fault Refusal :=
  match s.snapshot with
  | .error i => .fault (.unwrittenCell i)
  | .ok bits => .next (State.drive .decode none (some (cardRecord bits s.count s.accA s.accB)) s s.clearFrame)

end Sys2Proof.Machine
end

