-- ==== Sys2Proof/Machine/Timeout.lean ====
section
/-! DEFINITION. The inactivity timeout: TICK and READY (R120, R121). -/

namespace Sys2Proof.Machine

/-- TICK (R120): one count of the inactivity watchdog. -/
def execTick (s : State) : Host.Outcome State Fault Refusal :=
  .next (State.drive .tick none none s s.countDown)

/-- READY (R121): the consumer samples the level `ready`; no state element is written. -/
def execReady (s : State) : Host.Outcome State Fault Refusal :=
  .next (State.drive .ready (some s.ready) none s s)

end Sys2Proof.Machine
end

