-- ==== Sys2Proof/Machine/Dispatch.lean ====
section
/-! DEFINITION. One arm for each event of the opcode map (R72). -/

namespace Sys2Proof.Machine

def exec (i : Instr) (s : State) : Host.Outcome State Fault Refusal :=
  match i with
  | .nop => Sys2Proof.Machine.execNop s
  | .pulse0 => Sys2Proof.Machine.execPulse0 s
  | .pulse1 => Sys2Proof.Machine.execPulse1 s
  | .tick => Sys2Proof.Machine.execTick s
  | .ready => Sys2Proof.Machine.execReady s
  | .decode => Sys2Proof.Machine.execDecode s
  | .reserved => Sys2Proof.Machine.execReserved s
  | .reset => Sys2Proof.Machine.execReset s

end Sys2Proof.Machine
end

