-- ==== Sys2Proof/Machine/Step.lean ====
section
/-! DEFINITION. One step performs exactly one event (R70): the next code of the trace, decoded and performed atomically (R56). -/

namespace Sys2Proof.Machine

/-- One step: the next code on `ev` is taken from the trace and its event performed. Where no agent has an event the run has
ended (R240) and the step is refused by name (log entry 2). -/
def step (s : State) : Host.Outcome State Fault Refusal :=
  match s.fetch with
  | none => .refused .traceEnded
  | some (ev, t) => exec (decode ev) t

/-- `s` with the code in the low bits of `w` as the next on `ev`; `nbits` is how many bits of `w` count (the table's row, in whole
bytes) and the event input takes the low three (R70). Nothing else changes. -/
def State.withFetchWord (s : State) (nbits w : Nat) : State :=
  { s with pending := BitVec.ofNat 3 (w % 2 ^ nbits) :: s.pending }

end Sys2Proof.Machine
end

