-- ==== Sys2Proof/Machine/Agents.lean ====
section
/-! DEFINITION. The agents (R13), the events each may issue (R72), and the traces their events make (R59). The block checks no issuer
(R214): this is a discipline of the system around it. -/

namespace Sys2Proof.Machine

/-- The three agents of R13. -/
inductive Agent where
  | producer
  | consumer
  | host
deriving DecidableEq, Repr

/-- Whether an agent may issue an event (R72, column "agent"): NOP is any agent's, the reserved code nobody's. -/
def Agent.mayIssue (a : Agent) : Instr → Bool
  | .nop => true
  | .pulse0 => a == .producer
  | .pulse1 => a == .producer
  | .tick => a == .consumer
  | .ready => a == .consumer
  | .decode => a == .consumer
  | .reserved => false
  | .reset => a == .host

/-- `Interleaving ps cs hs tr`: the trace `tr` holds the events the producer issued (`ps`), the consumer's (`cs`) and the host's (`hs`),
each agent's in the order it issued them, and between agents in any order (R59, R211). -/
inductive Interleaving : List Instr → List Instr → List Instr → List Instr → Prop where
  | nil : Interleaving [] [] [] []
  | producer {i : Instr} {ps cs hs tr : List Instr} (may : Agent.producer.mayIssue i = true)
      (rest : Interleaving ps cs hs tr) : Interleaving (i :: ps) cs hs (i :: tr)
  | consumer {i : Instr} {ps cs hs tr : List Instr} (may : Agent.consumer.mayIssue i = true)
      (rest : Interleaving ps cs hs tr) : Interleaving ps (i :: cs) hs (i :: tr)
  | host {i : Instr} {ps cs hs tr : List Instr} (may : Agent.host.mayIssue i = true)
      (rest : Interleaving ps cs hs tr) : Interleaving ps cs (i :: hs) (i :: tr)

/-- What one agent issued, in its own order, where each event of a trace stands with the agent that issued it. -/
def issuedBy (a : Agent) (tagged : List (Agent × Instr)) : List Instr := (tagged.filter (·.1 == a)).map (·.2)

/-- An infinite trace the agents can produce (R240): step `n` is an event that the agent `who n` may issue, and `who` is free, so that
the agents take turns in any way (R59). -/
def AgentsTrace (who : Nat → Agent) (tr : Nat → Instr) : Prop := ∀ n, (who n).mayIssue (tr n) = true

end Sys2Proof.Machine
end

