-- ==== Sys2Proof/Machine/Trace.lean ====
section
/-! DEFINITION. The trace text (R77) and the pseudo-events (R78). Text is a list of characters, one event a line. -/

namespace Sys2Proof.Machine

abbrev Text := List Char

/-- A line of a trace: an event, or a pseudo-event (R78). -/
inductive TraceItem where
  | event (i : Instr)
  | send (bits : List Bool)
  | ticks (n : Nat)
  | wait
  | poll
deriving DecidableEq, Repr

/-- The pulse that carries a bit: PULSE0 for 0, PULSE1 for 1 (R72, R78). -/
def pulseOf (b : Bool) : Instr := if b then .pulse1 else .pulse0

/-- The events a line stands for (R78). `POLL` is a consumer procedure: DECODE follows only if the READY after its TICK returned 1, so
its events depend on the state it starts in (log entry 13). -/
def TraceItem.expand (s : State) : TraceItem → List Instr
  | .event i => [i]
  | .send bits => bits.map pulseOf
  | .ticks n => List.replicate n .tick
  | .wait => List.replicate s.cfg.tWait .tick
  | .poll => if s.countDown.ready then [.tick, .ready, .decode] else [.tick, .ready]

/-- Why a line is no line of a trace, or a trace has no text. -/
inductive TraceError where
  /-- The words of a line that is neither a mnemonic of R77 nor a pseudo-event of R78. Safe: the trace is not run. -/
  | badLine (words : List Text)
  /-- An event with no mnemonic, which R77 gives no way to write: the reserved code. Raised by `printTrace`. Safe: no text is given, so
  no event is lost in one (DESIGN CHOICE, log entry 11). -/
  | noMnemonic (i : Instr)
deriving DecidableEq, Repr

/-- The mnemonic of an event (R72, R77). The reserved code has none. -/
def mnemonicOf : Instr → Option Text
  | .nop => some "NOP".toList
  | .pulse0 => some "PULSE0".toList
  | .pulse1 => some "PULSE1".toList
  | .tick => some "TICK".toList
  | .ready => some "READY".toList
  | .decode => some "DECODE".toList
  | .reserved => none
  | .reset => some "RESET".toList

/-- The events a trace can name (R77). -/
def namedEvents : List Instr := [.nop, .pulse0, .pulse1, .tick, .ready, .decode, .reset]

/-- The characters between two words of a line (log entry 11). -/
def isBlank (c : Char) : Bool := c == ' ' || c == '\t' || c == '\r'

/-- A text cut at the characters that satisfy `p`. -/
def cutAt (p : Char → Bool) : Text → List Text
  | [] => [[]]
  | c :: cs =>
    match cutAt p cs with
    | [] => [[c]]
    | w :: ws => if p c then [] :: w :: ws else (c :: w) :: ws

/-- The words of a line, its comment left out: a comment starts with `;` (R77). -/
def wordsOf (line : Text) : List Text :=
  (cutAt isBlank (line.takeWhile (· != ';'))).filter (fun w => !w.isEmpty)

/-- A string of 0 and 1 as bits (R78). -/
def bitsOfText : Text → Option (List Bool)
  | [] => some []
  | c :: cs =>
    match bitsOfText cs with
    | none => none
    | some bs => if c == '0' then some (false :: bs) else if c == '1' then some (true :: bs) else none

/-- A decimal numeral. -/
def natOfText (w : Text) : Option Nat :=
  if w.isEmpty || !w.all Char.isDigit then none else some (w.foldl (fun v c => 10 * v + (c.toNat - 48)) 0)

/-- A line's item from its words (R77, R78): none for a line with no word. -/
def parseWords : List Text → Except TraceError (Option TraceItem)
  | [] => .ok none
  | w :: args =>
    if w == "SEND".toList then
      match bitsOfText args.flatten with
      | some (b :: bs) => .ok (some (.send (b :: bs)))
      | some [] => .error (.badLine (w :: args))
      | none => .error (.badLine (w :: args))
    else if w == "TICKS".toList then
      match args.map natOfText with
      | [some n] => .ok (some (.ticks n))
      | _ => .error (.badLine (w :: args))
    else if !args.isEmpty then .error (.badLine (w :: args))
    else if w == "WAIT".toList then .ok (some .wait)
    else if w == "POLL".toList then .ok (some .poll)
    else
      match namedEvents.find? (fun i => mnemonicOf i == some w) with
      | some i => .ok (some (.event i))
      | none => .error (.badLine (w :: args))

/-- The items of a trace's lines, in order. -/
def parseLines : List Text → Except TraceError (List TraceItem)
  | [] => .ok []
  | l :: ls =>
    match parseWords (wordsOf l) with
    | .error e => .error e
    | .ok none => parseLines ls
    | .ok (some x) =>
      match parseLines ls with
      | .error e => .error e
      | .ok xs => .ok (x :: xs)

/-- The trace a text writes, one event or pseudo-event a line (R77). -/
def parseTrace (text : Text) : Except TraceError (List TraceItem) := parseLines (cutAt (· == '\n') text)

/-- The text of a trace of events: one mnemonic a line (R77). The spec gives the reserved code no mnemonic and does not say how a step
with it is written. DESIGN CHOICE (log entry 11): a trace that holds one has no text, and printing it is refused by name. -/
def printTrace : List Instr → Except TraceError Text
  | [] => .ok []
  | i :: tr =>
    match mnemonicOf i, printTrace tr with
    | none, _ => .error (.noMnemonic i)
    | some _, .error e => .error e
    | some w, .ok text => .ok (w ++ '\n' :: text)

end Sys2Proof.Machine
end

