-- ==== Sys2Proof/Machine/Render.lean ====
section
/-! DEFINITION. The texts of a record's fields, as the reporting collaborator receives them (R150). The JSON around them is the
collaborator's (R3). -/

namespace Sys2Proof.Machine

/-- The last `width` digits of `n` in a base, the most significant first. -/
def digitsOf (base : Nat) : Nat → Nat → List Nat
  | 0, _ => []
  | width + 1, n => digitsOf base width (n / base) ++ [n % base]

/-- Digits with no leading zeros, and `0` for zero (D12). -/
def trimZeros (ds : List Nat) : List Nat :=
  match ds.dropWhile (· == 0) with
  | [] => [0]
  | d :: rest => d :: rest

/-- A digit in lower case. -/
def lowerDigit (d : Nat) : Char := "0123456789abcdef".toList.getD d '?'

/-- A digit in upper case. -/
def upperDigit (d : Nat) : Char := "0123456789ABCDEF".toList.getD d '?'

/-- `binary_value`: the 26 characters of `binary_digits`, the most significant first (R148, R150). -/
def binaryText (v : BitVec 26) : Text := (digitsOf 2 26 v.toNat).map lowerDigit

/-- `hex_value`: upper-case hexadecimal, no leading zeros (R150). A 26-bit value has at most 7 digits. -/
def hexText (v : BitVec 26) : Text := (trimZeros (digitsOf 16 7 v.toNat)).map upperDigit

/-- `facility_code`: decimal, no leading zeros (R150). -/
def facilityText (v : BitVec 8) : Text := (trimZeros (digitsOf 10 3 v.toNat)).map lowerDigit

/-- `unique_code`: decimal, no leading zeros (R150). -/
def uniqueText (v : BitVec 16) : Text := (trimZeros (digitsOf 10 5 v.toNat)).map lowerDigit

/-- `proxmark`: PRE in lower-case hexadecimal with no leading zeros, then CD as exactly 6 digits (R150). PRE and CD are the high 20 and
the low 24 bits of the composite value (R147). -/
def proxmarkText (v : BitVec 44) : Text :=
  (trimZeros (digitsOf 16 5 (v.extractLsb' 24 20).toNat) ++ digitsOf 16 6 (v.extractLsb' 0 24).toNat).map lowerDigit

/-- The five string-formatted fields of the outbound call (R150, R208). -/
structure CardText where
  binaryValue : Text
  hexValue : Text
  facilityCode : Text
  uniqueCode : Text
  proxmark : Text
deriving DecidableEq, Repr

/-- The texts of a record (R150). `bit_count` is not sent. -/
def renderCard (c : CardRecord) : CardText where
  binaryValue := binaryText c.binaryDigits
  hexValue := hexText c.hexValue
  facilityCode := facilityText c.facilityCode
  uniqueCode := uniqueText c.uniqueCode
  proxmark := proxmarkText c.compositeValue

end Sys2Proof.Machine
end

