-- ==== Sys2Proof/Machine/Run.lean ====
section
/-! DEFINITION. A run (R240), finite or infinite: the events of a trace performed one after another, with the observation, and the refusal
the model records and keeps (R203). `step` performs the same events one at a time from `pending`. -/

namespace Sys2Proof.Machine

/-- A run so far: the block's state, the observation step by step (R240), and the first refusal and the first fault recorded. -/
structure Run where
  state : State
  observation : List Ports
  refusal : Option Refusal
  fault : Option Fault
deriving DecidableEq, Repr

/-- The run that has performed nothing yet. -/
def Run.start (s : State) : Run := ⟨s, [], none, none⟩

/-- Perform one event. A refusal is recorded for the rest of the run and leaves the state unchanged (R203). DESIGN CHOICE (log entry 8):
a step that is refused or faults performs no event and adds no entry to the observation, and after a fault the run stops. -/
def Run.perform (r : Run) (i : Instr) : Run :=
  match r.fault with
  | some _ => r
  | none =>
    match exec i r.state with
    | .next t => { r with state := t, observation := r.observation ++ t.out.toList }
    | .refused why => { r with refusal := r.refusal.or (some why) }
    | .fault why => { r with fault := some why }

/-- What the ports show when a run performs an event (R240): nothing where the event is refused or faults, or the run has stopped at a
fault (DESIGN CHOICE, log entry 8). -/
def Run.shows (r : Run) (i : Instr) : Option Ports :=
  match r.fault with
  | some _ => none
  | none =>
    match exec i r.state with
    | .next t => t.out
    | .refused _ => none
    | .fault _ => none

/-- Perform the events of a trace in order (R59). -/
def Run.performAll (r : Run) (tr : List Instr) : Run := tr.foldl Run.perform r

/-- Perform a line of a trace: its events, expanded in the state reached (R78). -/
def Run.performItem (r : Run) (x : TraceItem) : Run := r.performAll (x.expand r.state)

/-- Perform the lines of a trace in order. -/
def Run.performItems (r : Run) (xs : List TraceItem) : Run := xs.foldl Run.performItem r

/-- The run of a trace from a state. -/
def runFrom (s : State) (tr : List Instr) : Run := (Run.start s).performAll tr

/-- An infinite run (R240) after its first `n` steps: `tr k` is the event of step `k`, and no step is the last. -/
def runAfter (s : State) (tr : Nat → Instr) : Nat → Run
  | 0 => Run.start s
  | n + 1 => (runAfter s tr n).perform (tr n)

/-- The observation of an infinite run, step by step (R240): what its step `n` shows. -/
def observedAt (s : State) (tr : Nat → Instr) (n : Nat) : Option Ports := (runAfter s tr n).shows (tr n)

/-- The first `n` events of an infinite trace. -/
def firstEvents (tr : Nat → Instr) (n : Nat) : List Instr := (List.range n).map tr

/-- The records of a run, in the order DECODE emitted them (R141). -/
def Run.cards (r : Run) : List CardRecord := r.observation.filterMap (·.card)

/-- What the READY events of a run returned, in order (R121). -/
def Run.results (r : Run) : List Bool := r.observation.filterMap (·.result)

end Sys2Proof.Machine
end

