-- ==== Sys2Proof/Safety.lean ====
section
/-! DEFINITION. The terms claims use: the invariant of every state a run reaches (R29), a run with nothing recorded against it
(R203, R240), the parts of a trace the timing rules speak of (R124, R125), and the duties of the system around the block (R231, R236). -/

namespace Sys2Proof.Machine

/-- R29, INV1 to INV5, with the frame buffer's form (R26): exactly the cells below COUNT hold a value. -/
structure Inv (s : State) : Prop where
  /-- The constraints of the parameters (R8). -/
  params : s.cfg.wellFormed = true
  /-- INV1. -/
  count_le : s.count ≤ s.cfg.cap
  /-- INV2. -/
  fin_iff : s.fin = true ↔ s.wd = 0
  /-- INV3. -/
  wd_le : s.wd ≤ s.cfg.tWait
  /-- The canonical form of BUF. -/
  bufWf : Memory.wf s.buf
  /-- A cell holds a value exactly below COUNT (R22, R26). -/
  written : ∀ i, (Memory.read i s.buf).isSome = decide (i < s.count)
  /-- INV4: `ACC_A` is the fold of the first `min(COUNT, 22)` frame bits. -/
  accA_eq : ∀ bits, s.snapshot = .ok bits → s.accA.toNat = fold (bits.take 22)
  /-- INV5: `ACC_B` is the fold of the frame bits from 22 on, `mod 2^26`; 0 where there are none. -/
  accB_eq : ∀ bits, s.snapshot = .ok bits → s.accB.toNat = fold (bits.drop 22) % 2 ^ 26

/-- The six elements of R20 are the same; parameters, trace and ports are not compared. -/
def SameBlock (s t : State) : Prop :=
  t.count = s.count ∧ t.buf = s.buf ∧ t.accA = s.accA ∧ t.accB = s.accB ∧ t.wd = s.wd ∧ t.fin = s.fin

/-- The reset configuration of R31: the values of the six elements. -/
def ResetBlock (s : State) : Prop :=
  s.count = 0 ∧ (∀ i, Memory.read i s.buf = none) ∧ s.accA = 0 ∧ s.accB = 0 ∧ s.wd = 0 ∧ s.fin = true

/-- The record of a frame of a length other than 26 (R154). -/
def zeroRecord (n : Nat) : CardRecord := ⟨n, 0, 0, 0, 0, 0⟩

/-- The record of a frame by R153, the closed form for 26 bits: with `V` the frame read as one 26-bit number, `V[24:17]`, `V[16:1]`,
`0x2004000000 + V`, `V` and `V`; for any other length the zero record (R154). It reads no accumulator. -/
def frameRecord (bits : List Bool) : CardRecord :=
  if bits.length = 26 then
    { bitCount := 26
      facilityCode := BitVec.ofNat 8 (fold bits / 2 ^ 17)
      uniqueCode := BitVec.ofNat 16 (fold bits / 2)
      compositeValue := BitVec.ofNat 44 (0x2004000000 + fold bits)
      hexValue := BitVec.ofNat 26 (fold bits)
      binaryDigits := BitVec.ofNat 26 (fold bits) }
  else zeroRecord bits.length

/-- The step's interface: the ports show the event, the level `ready` before it, READY's result and DECODE's record (R70, R240), and the
parameters (R8) and the rest of the trace are as they were. -/
def Shows (i : Instr) (result : Option Bool) (card : Option CardRecord) (s t : State) : Prop :=
  t.out = some ⟨i, s.ready, result, card⟩ ∧ t.cfg = s.cfg ∧ t.pending = s.pending

/-- What an accepted bit does to COUNT, BUF and the accumulators (R100, R101): it is stored in the cell at COUNT and in no other, and
shifted into ACC_A below index 22 and into ACC_B from 22 on. -/
def Appended (b : Bool) (s t : State) : Prop :=
  t.count = s.count + 1 ∧
  Memory.read s.count t.buf = some b ∧
  (∀ k, k ≠ s.count → Memory.read k t.buf = Memory.read k s.buf) ∧
  (s.count < 22 → t.accA.toNat = (2 * s.accA.toNat + b.toNat) % 2 ^ 26 ∧ t.accB = s.accB) ∧
  (22 ≤ s.count → t.accA = s.accA ∧ t.accB.toNat = (2 * s.accB.toNat + b.toNat) % 2 ^ 26)

/-- What a dropped bit leaves (R103): COUNT, BUF and the accumulators as they were. -/
def Dropped (s t : State) : Prop :=
  t.count = s.count ∧ t.buf = s.buf ∧ t.accA = s.accA ∧ t.accB = s.accB

/-- A run about which claims may be made (R240): no refusal is recorded (R203), and no fault. -/
def Run.clean (r : Run) : Prop := r.refusal = none ∧ r.fault = none

/-- Whether an event is a pulse. -/
def isPulse : Instr → Bool
  | .pulse0 => true
  | .pulse1 => true
  | .nop => false
  | .tick => false
  | .ready => false
  | .decode => false
  | .reserved => false
  | .reset => false

/-- Whether an event leaves the frame alone: NOP, TICK, READY. -/
def isQuiet : Instr → Bool
  | .nop => true
  | .tick => true
  | .ready => true
  | .pulse0 => false
  | .pulse1 => false
  | .decode => false
  | .reserved => false
  | .reset => false

/-- Whether an event clears the frame: DECODE and RESET (R122). -/
def clearsFrame : Instr → Bool
  | .decode => true
  | .reset => true
  | .nop => false
  | .pulse0 => false
  | .pulse1 => false
  | .tick => false
  | .ready => false
  | .reserved => false

/-- The consumer's fairness (R127, D30): TICK, READY and DECODE infinitely often. -/
def FairConsumer (tr : Nat → Instr) : Prop :=
  ∀ n, (∃ m, n ≤ m ∧ tr m = .tick) ∧ (∃ m, n ≤ m ∧ tr m = .ready) ∧ (∃ m, n ≤ m ∧ tr m = .decode)

/-- A consumer that keeps DECODE's precondition (R141: `ready` is 1) from step `n` on and is fair to it (log entry 16): TICK infinitely
often, DECODE only while `ready` is 1, and a DECODE some time where `ready` would stay 1 for ever. -/
structure PollingConsumer (s : State) (tr : Nat → Instr) (n : Nat) : Prop where
  ticks : ∀ k, ∃ m, k ≤ m ∧ tr m = .tick
  onlyReady : ∀ m, n ≤ m → tr m = .decode → (runAfter s tr m).state.ready = true
  answers : ∀ k, n ≤ k → (∀ m, k ≤ m → (runAfter s tr m).state.ready = true) → ∃ m, k ≤ m ∧ tr m = .decode

/-- From step `n` on the frame is left alone until it is decoded: no pulse and no RESET comes before the next DECODE. -/
def UndisturbedFrom (tr : Nat → Instr) (n : Nat) : Prop :=
  ∀ m, n ≤ m → (∀ k, n ≤ k → k ≤ m → tr k ≠ .decode) → isPulse (tr m) = false ∧ tr m ≠ .reset

/-- The bits a trace's pulses carry, in order (R79, R100, R101). -/
def pulseBits (tr : List Instr) : List Bool :=
  tr.filterMap (fun i =>
    match i with
    | .pulse0 => some false
    | .pulse1 => some true
    | .nop => none
    | .tick => none
    | .ready => none
    | .decode => none
    | .reserved => none
    | .reset => none)

/-- The number of TICK events of a trace, the spec's measure of time (R76). -/
def tickCount (tr : List Instr) : Nat := tr.countP (· == .tick)

/-- `now - last` of R125 after a trace from reset: the TICK events since the most recent pulse event, none where no pulse has been
performed since reset. -/
def ticksSincePulse (tr : List Instr) : Option Nat :=
  tr.foldl (fun since i =>
    match i with
    | .pulse0 => some 0
    | .pulse1 => some 0
    | .tick => since.map (· + 1)
    | .reset => none
    | .nop => since
    | .ready => since
    | .decode => since
    | .reserved => since) none

/-- A system's duty on the window (R236): `T_WAIT * TICK_PERIOD` is longer than the longest gap inside a transmission, and shorter than
the shortest gap between two transmissions less the consumer's reaction time. All four are real times in one unit. -/
def windowFits (c : Config) (longestBitGap shortestSilence reaction : Nat) : Prop :=
  longestBitGap < c.tWait * Config.tickPeriod ∧ c.tWait * Config.tickPeriod < shortestSilence - reaction

end Sys2Proof.Machine
end

