-- ==== Sys2Proof/Certificates/Slice0/Obligations.lean ====
section
/-! DEFINITION. The statements for the provers. Each docstring names the rule of spec/ that its statement formalises. -/

open Sys2Proof Sys2Proof.Machine

-- Events as codes and as text.

/-- R72: the opcode map. Each code is its event's, every one of the eight values of `ev` selects exactly one row, and each event is
issued by the agent its row names. -/
def Obligations.EventCodesFollowTheOpcodeMap : Prop :=
  (decode 0b000#3 = .nop ∧ decode 0b001#3 = .pulse0 ∧ decode 0b010#3 = .pulse1 ∧ decode 0b011#3 = .tick ∧
    decode 0b100#3 = .ready ∧ decode 0b101#3 = .decode ∧ decode 0b110#3 = .reserved ∧ decode 0b111#3 = .reset) ∧
  (∀ ev : EventCode, (opcodeTable.filter (rowMatches ev)).map (·.instr) = [decode ev]) ∧
  (∀ r ∈ opcodeTable, r.mask = 0b111#3) ∧
  (∀ a : Agent, a.mayIssue .nop = true ∧ a.mayIssue .reserved = false ∧
    (a.mayIssue .pulse0 = true ↔ a = .producer) ∧ (a.mayIssue .pulse1 = true ↔ a = .producer) ∧
    (a.mayIssue .tick = true ↔ a = .consumer) ∧ (a.mayIssue .ready = true ↔ a = .consumer) ∧
    (a.mayIssue .decode = true ↔ a = .consumer) ∧ (a.mayIssue .reset = true ↔ a = .host))

/-- Derived from R71 and R72: no event and no code is lost between the encoder and the decoder. -/
def Obligations.EncodeAndDecodeAreInverse : Prop :=
  (∀ i : Instr, decode (encode i) = i) ∧ (∀ ev : EventCode, encode (decode ev) = ev) ∧
  (∀ i : Instr, i.wellFormed = true ↔ encode i ≠ 0b110#3)

/-- The model's choice (log entry 9) beside R70's 3-bit `ev`: a word below 8 is the event of its low bits, any other is rejected by
name. -/
def Obligations.OnlyThreeBitWordsAreEvents : Prop :=
  ∀ w : Nat, (w < 8 → decodeWord w = .ok (decode (BitVec.ofNat 3 w))) ∧
    (8 ≤ w → decodeWord w = .error (.notAnEventCode w))

/-- Derived from R77 (its layout details are the model's choice, log entry 11): every trace of events that have a mnemonic has a text,
which reads back as that trace; a trace with the reserved code, which has none, is refused a text by name (log entry 11). The encoding
of every trace decodes to it. -/
def Obligations.TraceTextAndEncodingReadBack : Prop :=
  ∀ tr : List Instr,
    ((∀ i ∈ tr, i.wellFormed = true) → ∃ text, printTrace tr = .ok text ∧ parseTrace text = .ok (tr.map .event)) ∧
    (.reserved ∈ tr → printTrace tr = .error (.noMnemonic .reserved)) ∧
    (encodeTrace tr).map decode = tr

/-- R78: what each pseudo-event expands to, in any state; and POLL performed from a state of the invariant is a TICK, a READY, and a
DECODE exactly where that READY returned 1. -/
def Obligations.PseudoEventsExpandAsGiven : Prop :=
  (∀ (s : State) (bits : List Bool),
    TraceItem.expand s (.send bits) = bits.map (fun b => if b then Instr.pulse1 else Instr.pulse0)) ∧
  (∀ (s : State) (n : Nat), TraceItem.expand s (.ticks n) = List.replicate n .tick) ∧
  (∀ s : State, TraceItem.expand s .wait = List.replicate s.cfg.tWait .tick) ∧
  (∀ s : State, Inv s → ∃ b : Bool,
    let r := (Run.start s).performItem .poll
    r.clean ∧ r.results = [b] ∧
    r.observation.map (·.event) = (if b then [.tick, .ready, .decode] else [.tick, .ready]))

-- Steps and runs.

/-- R70 (one step performs exactly one event) with the trace of R77 as the source of `ev`: a step performs the event of the first
pending code and takes that code off the trace. A placed word is the very next event. With no code left the step is refused, which
is the model's choice (log entry 2). -/
def Obligations.StepPerformsTheNextEvent : Prop :=
  (∀ (s : State) (ev : EventCode) (rest : List EventCode), s.pending = ev :: rest →
    step s = exec (decode ev) { s with pending := rest }) ∧
  (∀ s : State, s.pending = [] → step s = .refused .traceEnded) ∧
  (∀ (s : State) (nbits w : Nat), 3 ≤ nbits → w < 8 →
    step (s.withFetchWord nbits w) = exec (decode (BitVec.ofNat 3 w)) s)

/-- Derived from R59, R70 and R240: the steps of the machine over a trace reach the state that performing its events one after another
reaches, where nothing is recorded against that run. -/
def Obligations.StepsReachTheStateOfTheRun : Prop :=
  ∀ (s : State) (codes rest : List EventCode),
    (runFrom { s with pending := rest } (codes.map decode)).clean →
    core.run codes.length { s with pending := codes ++ rest } =
      .next (runFrom { s with pending := rest } (codes.map decode)).state

/-- R25: `ready` is the level of FIN = 1 and COUNT >= 26; in every step the port shows it for the state before the event, and the READY
event samples it. -/
def Obligations.ReadyLevelIsOfTheStateBefore : Prop :=
  (∀ s : State, s.ready = true ↔ (s.fin = true ∧ 26 ≤ s.count)) ∧
  (∀ (i : Instr) (s t : State), exec i s = .next t → t.out.map (·.ready) = some s.ready) ∧
  (∀ s t : State, exec .ready s = .next t → t.out.map (·.result) = some (some s.ready))

-- The events, one by one: the next state, and all it leaves unchanged.

/-- R100: PULSE0, in every state. Below capacity the bit 0 is appended; at capacity it is dropped; either way WD is T_WAIT, FIN is 0
and `ready` is 0 in the next step. -/
def Obligations.PulseZeroAppendsZero : Prop :=
  decode 0b001#3 = .pulse0 ∧
  ∀ s : State, ∃ t, exec .pulse0 s = .next t ∧
    (s.count < s.cfg.cap → Appended false s t) ∧ (s.cfg.cap ≤ s.count → Dropped s t) ∧
    t.wd = s.cfg.tWait ∧ t.fin = false ∧ t.ready = false ∧ Shows .pulse0 none none s t

/-- R101: PULSE1, in every state. Below capacity the bit 1 is appended; at capacity it is dropped; either way WD is T_WAIT, FIN is 0
and `ready` is 0 in the next step. From reset, 22 of them give ACC_A = 0x3FFFFF, and the next four give ACC_B = 0xF. -/
def Obligations.PulseOneAppendsOne : Prop :=
  decode 0b010#3 = .pulse1 ∧
  (∀ s : State, ∃ t, exec .pulse1 s = .next t ∧
    (s.count < s.cfg.cap → Appended true s t) ∧ (s.cfg.cap ≤ s.count → Dropped s t) ∧
    t.wd = s.cfg.tWait ∧ t.fin = false ∧ t.ready = false ∧ Shows .pulse1 none none s t) ∧
  (∀ c : Config, c.wellFormed = true →
    (runFrom (State.powerOn c []) (List.replicate 22 .pulse1)).state.accA = 0x3FFFFF#26 ∧
    (runFrom (State.powerOn c []) (List.replicate 26 .pulse1)).state.accA = 0x3FFFFF#26 ∧
    (runFrom (State.powerOn c []) (List.replicate 26 .pulse1)).state.accB = 0xF#26)

/-- R103 and R104: a pulse at COUNT = CAP stores nothing and changes neither COUNT nor the accumulators, and is still activity. -/
def Obligations.PulseAtCapacityIsDroppedButIsActivity : Prop :=
  ∀ (b : Bool) (s : State), s.count = s.cfg.cap →
    ∃ t, exec (if b then .pulse1 else .pulse0) s = .next t ∧ Dropped s t ∧ t.wd = s.cfg.tWait ∧ t.fin = false ∧
      t.ready = false

/-- R106: a pulse that arrives while `ready` = 1 is appended like any other (at capacity it is dropped like any other, R103), the frame
grows past 26 bits, and `ready` is 0 until a new window has elapsed. -/
def Obligations.LatePulseJoinsTheReadyFrame : Prop :=
  ∀ (b : Bool) (s : State), Inv s → s.ready = true →
    ∃ t, exec (if b then .pulse1 else .pulse0) s = .next t ∧
      (s.count < s.cfg.cap → Appended b s t ∧ 26 < t.count) ∧ (s.count = s.cfg.cap → Dropped s t) ∧ t.ready = false ∧
      ∀ tr : List Instr, (∀ i ∈ tr, isQuiet i = true) →
        (runFrom t tr).state.ready = decide (s.cfg.tWait ≤ tickCount tr)

/-- R120: TICK. With FIN = 1 nothing changes; with FIN = 0 (where INV2 gives WD >= 1) WD goes down by one, and FIN becomes 1 on the
tick that brings it to 0. COUNT, BUF and the accumulators never change. -/
def Obligations.TickCountsTheWatchdogDown : Prop :=
  decode 0b011#3 = .tick ∧
  ∀ s : State, (s.fin = true ∨ 1 ≤ s.wd) → ∃ t, exec .tick s = .next t ∧
    t.count = s.count ∧ t.buf = s.buf ∧ t.accA = s.accA ∧ t.accB = s.accB ∧
    (s.fin = true → t.wd = s.wd ∧ t.fin = true) ∧
    (s.fin = false → t.wd + 1 = s.wd ∧ (t.fin = true ↔ s.wd = 1)) ∧
    (s.fin = false → (t.ready = true ↔ s.wd = 1 ∧ 26 ≤ s.count)) ∧
    Shows .tick none none s t

/-- The model's reading of R23 (log entry 5) in the states INV2 rules out: with FIN = 0 and WD = 0, a TICK leaves WD at 0, which never
goes below 0 and never wraps, and sets FIN. -/
def Obligations.TickAtZeroNeverWraps : Prop :=
  ∀ s : State, s.fin = false → s.wd = 0 → ∃ t, exec .tick s = .next t ∧
    t.wd = 0 ∧ t.fin = true ∧ t.count = s.count ∧ t.buf = s.buf ∧ t.accA = s.accA ∧ t.accB = s.accB ∧
    Shows .tick none none s t

/-- R121: READY returns (FIN = 1) and (COUNT >= 26) and writes no state element; repeated, it returns the same. -/
def Obligations.ReadyReturnsTheLevelAndWritesNothing : Prop :=
  decode 0b100#3 = .ready ∧
  ∀ s : State, ∃ t, exec .ready s = .next t ∧ SameBlock s t ∧
    Shows .ready (some (s.fin && decide (26 ≤ s.count))) none s t ∧
    ∃ u, exec .ready t = .next u ∧ SameBlock s u ∧ Shows .ready (some (s.fin && decide (26 ≤ s.count))) none t u

/-- R141 and R151: DECODE in every state whose frame cells hold values. The record is formed from the state before the step, by the
rule's formulas; the frame and the accumulators are cleared; WD and FIN stay. -/
def Obligations.DecodeEmitsTheRecordAndClears : Prop :=
  decode 0b101#3 = .decode ∧
  ∀ (s : State) (bits : List Bool), s.snapshot = .ok bits →
    ∃ t c, exec .decode s = .next t ∧ Shows .decode none (some c) s t ∧
      t.count = 0 ∧ t.accA = 0 ∧ t.accB = 0 ∧ (∀ i, Memory.read i t.buf = none) ∧ t.wd = s.wd ∧ t.fin = s.fin ∧
      t.ready = false ∧ t.cardValid = true ∧ c.bitCount = s.count ∧ c.hexValue = c.binaryDigits ∧
      (s.count = 26 →
        c.facilityCode.toNat = fold ((bits.drop 1).take 8) ∧ c.uniqueCode.toNat = fold ((bits.drop 9).take 16) ∧
        c.compositeValue.toNat =
          (0x2004 + 2 * (s.accA.getLsbD 21).toNat + (s.accA.getLsbD 20).toNat) * 2 ^ 24 +
            (s.accA.toNat % 2 ^ 20 * 2 ^ 4 + s.accB.toNat % 2 ^ 4) ∧
        c.binaryDigits.toNat =
          (2 * (s.accA.getLsbD 21).toNat + (s.accA.getLsbD 20).toNat) * 2 ^ 24 +
            (s.accA.toNat % 2 ^ 20 * 2 ^ 4 + s.accB.toNat % 2 ^ 4)) ∧
      (s.count ≠ 26 → c = ⟨s.count, 0, 0, 0, 0, 0⟩)

/-- Derived from R159 and R29: DECODE completes in its step in every state of the invariant, which every reachable state is, and drives
`card_valid` = 1 in that step only. Outside the invariant DECODE can fault (log entry 7; DecodeFaultsExactlyOnAnUnwrittenCell). -/
def Obligations.DecodeCompletesUnderTheInvariant : Prop :=
  (∀ s : State, Inv s → ∃ t, exec .decode s = .next t ∧ t.cardValid = true) ∧
  (∀ (i : Instr) (s t : State), i ≠ .decode → exec i s = .next t → t.cardValid = false)

/-- R26 and the model's fault on an unwritten cell (U1, log entry 7): DECODE stops exactly where a frame cell holds no value, and names
the first such cell. No state of the invariant has one. -/
def Obligations.DecodeFaultsExactlyOnAnUnwrittenCell : Prop :=
  (∀ (s : State) (i : Nat), exec .decode s = .fault (.unwrittenCell i) ↔
    (i < s.count ∧ Memory.read i s.buf = none ∧ ∀ k, k < i → Memory.read k s.buf ≠ none)) ∧
  (∀ (s : State) (f : Fault), Inv s → exec .decode s ≠ .fault f)

/-- R180: NOP writes no state element and drives `card_valid` = 0. -/
def Obligations.NopChangesNothing : Prop :=
  decode 0b000#3 = .nop ∧
  ∀ s : State, ∃ t, exec .nop s = .next t ∧ SameBlock s t ∧ Shows .nop none none s t ∧ t.cardValid = false

/-- R181: RESET puts the block in the reset configuration, whatever it held, and emits no record; `ready` is 0 in the next step. -/
def Obligations.ResetEventGivesTheResetConfiguration : Prop :=
  decode 0b111#3 = .reset ∧
  ∀ s : State, ∃ t, exec .reset s = .next t ∧ ResetBlock t ∧ t.cardValid = false ∧ t.ready = false ∧
    Shows .reset none none s t

/-- R230: the block powers on in the reset configuration, idle with `ready` = 0 and `card_valid` = 0, and RESET puts it in the same
configuration at any later step. -/
def Obligations.PowerOnIsTheResetConfiguration : Prop :=
  (∀ (c : Config) (tr : List EventCode), ResetBlock (State.powerOn c tr) ∧ (State.powerOn c tr).ready = false ∧
    (State.powerOn c tr).cardValid = false) ∧
  ResetBlock State.reset ∧
  (∀ s : State, ∃ t, exec .reset s = .next t ∧ ResetBlock t)

/-- R73: the reserved code has no meaning; the model refuses it in every state. -/
def Obligations.ReservedCodeIsRefused : Prop :=
  decode 0b110#3 = .reserved ∧ ∀ s : State, exec .reserved s = .refused .reservedCode

/-- R203: a run that meets the reserved code records a refusal, leaves the state unchanged there, and keeps the refusal for the rest of
the run. -/
def Obligations.RefusalIsKeptAndLeavesTheState : Prop :=
  ∀ (r : Run), r.fault = none →
    (r.perform .reserved).state = r.state ∧ (r.perform .reserved).refusal ≠ none ∧
    ∀ tr : List Instr, ((r.perform .reserved).performAll tr).refusal = (r.perform .reserved).refusal

/-- The model's choice beside R203 and R240 (log entry 8): the observation has an entry for exactly the steps that perform an event. A
step that answers a next state adds the ports of that state; a refused or faulting step adds none, the reserved code's among them; and
after a fault the run does nothing more. -/
def Obligations.OnlyPerformedEventsAreObserved : Prop :=
  (∀ (r : Run) (i : Instr) (t : State), r.fault = none → exec i r.state = .next t →
    ∃ p, t.out = some p ∧ p.event = i ∧ (r.perform i).observation = r.observation ++ [p]) ∧
  (∀ (r : Run) (i : Instr), (∀ t, exec i r.state ≠ .next t) → (r.perform i).observation = r.observation) ∧
  (∀ r : Run, (r.perform .reserved).observation = r.observation) ∧
  (∀ (r : Run) (tr : List Instr), r.fault ≠ none → r.performAll tr = r)

/-- R30 with D24, and the model's answer to a consumer that samples `card` when it is not driven (U2): the record in a DECODE step, a
refusal in every other. -/
def Obligations.CardIsSampledOnlyInADecodeStep : Prop :=
  ∀ (i : Instr) (s t : State), exec i s = .next t →
    (i = .decode → ∃ c, t.sampleCard = .next c ∧ c.bitCount = s.count) ∧
    (i ≠ .decode → t.sampleCard = .refused .cardNotDriven)

-- The whole machine: which event may write what, and the invariant.

/-- R20, the column "written by" (with the clears of R31 and R151 for BUF): each element changes only by the events listed for it. -/
def Obligations.OnlyListedEventsWriteEachElement : Prop :=
  ∀ (i : Instr) (s t : State), exec i s = .next t →
    (i ≠ .pulse0 → i ≠ .pulse1 → i ≠ .decode → i ≠ .reset → t.count = s.count ∧ t.accA = s.accA ∧ t.accB = s.accB) ∧
    (i ≠ .pulse0 → i ≠ .pulse1 → i ≠ .tick → i ≠ .reset → t.wd = s.wd ∧ t.fin = s.fin) ∧
    (i ≠ .pulse0 → i ≠ .pulse1 → ∀ k, Memory.read k t.buf ≠ none → Memory.read k t.buf = Memory.read k s.buf) ∧
    (i ≠ .pulse0 → i ≠ .pulse1 → i ≠ .decode → i ≠ .reset → t.buf = s.buf)

/-- R51: a pulse below capacity writes the cell at COUNT and no other, a pulse at capacity writes none; what DECODE answers depends on no
cell at COUNT or above. -/
def Obligations.FrameBufferIsReachedOnlyAtTheFrame : Prop :=
  (∀ (b : Bool) (s t : State), exec (if b then .pulse1 else .pulse0) s = .next t →
    ∀ k, Memory.read k t.buf = if k = s.count ∧ s.count < s.cfg.cap then some b else Memory.read k s.buf) ∧
  (∀ (s : State) (m : Memory), (∀ k, k < s.count → Memory.read k m = Memory.read k s.buf) →
    exec .decode { s with buf := m } = exec .decode s) ∧
  (∀ (i : Instr) (s t : State), isQuiet i = true → exec i s = .next t → t.buf = s.buf)

/-- R8: the parameters are fixed for a run and never changed by an event. -/
def Obligations.ParametersNeverChange : Prop :=
  (∀ (i : Instr) (s t : State), exec i s = .next t → t.cfg = s.cfg) ∧
  (∀ s t : State, step s = .next t → t.cfg = s.cfg) ∧
  (∀ (s : State) (tr : List Instr), (runFrom s tr).state.cfg = s.cfg)

/-- The canonical form of the frame buffer (log entry 7): every event keeps it, from every state that has it. -/
def Obligations.EventsKeepTheBufferCanonical : Prop :=
  ∀ (i : Instr) (s t : State), Memory.wf s.buf → exec i s = .next t → Memory.wf t.buf

/-- The invariant of R29 holds at power-on, for all parameters within their constraints, and at reset, which takes the defaults of R8
(log entry 3). -/
def Obligations.InvariantHoldsAtPowerOn : Prop :=
  (∀ (c : Config) (tr : List EventCode), c.wellFormed = true → Inv (State.powerOn c tr)) ∧ Inv State.reset ∧
  State.reset.cfg = ⟨100, 5000000, 32⟩

/-- Every step keeps INV1 to INV5 of R29, from every state that meets them. -/
def Obligations.EveryStepKeepsInv1ToInv5 : Prop :=
  ∀ s t : State, Inv s → step s = .next t → Inv t

/-- R29: in every state reachable from reset INV1 to INV5 hold, and (INV6) after a DECODE and until the next pulse COUNT and both
accumulators are 0. -/
def Obligations.ReachableStatesMeetTheInvariants : Prop :=
  ∀ (c : Config) (tr : List Instr), c.wellFormed = true →
    Inv (runFrom (State.powerOn c []) tr).state ∧
    ∀ before after : List Instr, tr = before ++ .decode :: after → (∀ i ∈ after, isPulse i = false) →
      (runFrom (State.powerOn c []) tr).state.count = 0 ∧
      (runFrom (State.powerOn c []) tr).state.accA = 0 ∧ (runFrom (State.powerOn c []) tr).state.accB = 0

/-- Derived from R8, R20, R29 and R30: the values the model holds as numbers fit the widths the spec gives them. -/
def Obligations.CountsFitTheirWidths : Prop :=
  ∀ s : State, Inv s → s.count < 2 ^ s.cfg.cw ∧ s.wd < 2 ^ s.cfg.wdw ∧ s.accA.toNat < 2 ^ 22 ∧
    ∀ t c, exec .decode s = .next t → t.sampleCard = .next c → c.bitCount < 2 ^ s.cfg.cw

/-- Derived from R200, for the events an agent may issue (R72; the reserved code has no meaning, R73, and is nobody's, log entry 12): none
ever stops, faults or diverts the block. Over every interleaving of the agents' events, from
power-on, nothing is recorded against the run, and each event is performed in its own step, in the trace's order. -/
def Obligations.NoAgentsEventStopsTheBlock : Prop :=
  ∀ (c : Config) (ps cs hs tr : List Instr), c.wellFormed = true → Interleaving ps cs hs tr →
    (runFrom (State.powerOn c []) tr).clean ∧
    (runFrom (State.powerOn c []) tr).observation.map (·.event) = tr

/-- Derived from R59 and R13 (with the agents' discipline, log entry 12): a trace is a permutation of the events the three agents issued,
each issued by an agent that may, with each agent's events in the order it issued them. The traces are exactly those of every choice of
which agent moves next: `tagged` is any list of events, each with an agent that may issue it. -/
def Obligations.InterleavingKeepsEachAgentsOrder : Prop :=
  (∀ ps cs hs tr : List Instr, Interleaving ps cs hs tr →
    tr.Perm (ps ++ cs ++ hs) ∧ ps.Sublist tr ∧ cs.Sublist tr ∧ hs.Sublist tr ∧
    (∀ i ∈ ps, Agent.producer.mayIssue i = true) ∧ (∀ i ∈ cs, Agent.consumer.mayIssue i = true) ∧
    (∀ i ∈ hs, Agent.host.mayIssue i = true) ∧ ∀ i ∈ tr, i.wellFormed = true) ∧
  (∀ tagged : List (Agent × Instr), (∀ x ∈ tagged, x.1.mayIssue x.2 = true) →
    Interleaving (issuedBy .producer tagged) (issuedBy .consumer tagged) (issuedBy .host tagged) (tagged.map (·.2))) ∧
  (∀ ps cs hs tr : List Instr, Interleaving ps cs hs tr →
    ∃ tagged : List (Agent × Instr), (∀ x ∈ tagged, x.1.mayIssue x.2 = true) ∧ tagged.map (·.2) = tr ∧
      issuedBy .producer tagged = ps ∧ issuedBy .consumer tagged = cs ∧ issuedBy .host tagged = hs)

-- Infinite runs.

/-- Derived from R240 and R59: an infinite run is, at each step, the finite run of the events so far, from any state. Where the agents
produce its trace from power-on, those events are an interleaving of what each agent has issued by then, and the machine's step on the
next code reaches the run's next state. -/
def Obligations.InfiniteRunIsItsFiniteRuns : Prop :=
  (∀ (s : State) (tr : Nat → Instr) (n : Nat), runAfter s tr n = runFrom s (firstEvents tr n)) ∧
  (∀ (who : Nat → Agent) (tr : Nat → Instr) (n : Nat), AgentsTrace who tr →
    let tagged := (List.range n).map (fun k => (who k, tr k))
    Interleaving (issuedBy .producer tagged) (issuedBy .consumer tagged) (issuedBy .host tagged) (firstEvents tr n)) ∧
  (∀ (c : Config) (who : Nat → Agent) (tr : Nat → Instr) (n : Nat), c.wellFormed = true → AgentsTrace who tr →
    step ((runAfter (State.powerOn c []) tr n).state.withFetchWord 3 (encode (tr n)).toNat) =
      .next (runAfter (State.powerOn c []) tr (n + 1)).state)

/-- Derived from R240, R200 and R203: an infinite run of the agents' events, from power-on, never has anything recorded against it, and
the observation has an entry for every step: the event performed, the level `ready` before it, what a READY returned, and the record of
a DECODE, that of the frame before it. The entries before step n are the finite run's observation. -/
def Obligations.InfiniteRunShowsEveryStep : Prop :=
  ∀ (c : Config) (who : Nat → Agent) (tr : Nat → Instr) (n : Nat), c.wellFormed = true → AgentsTrace who tr →
    let r := runAfter (State.powerOn c []) tr n
    r.clean ∧ r.observation.map some = (List.range n).map (observedAt (State.powerOn c []) tr) ∧
    ∃ p, observedAt (State.powerOn c []) tr n = some p ∧ p.event = tr n ∧ p.ready = r.state.ready ∧
      p.result = (if tr n = .ready then some r.state.ready else none) ∧
      (tr n ≠ .decode → p.card = none) ∧
      (tr n = .decode → ∃ bits, r.state.snapshot = .ok bits ∧ p.card = some (frameRecord bits))

/-- Derived from R127 and D30, over infinite runs. Under the consumer's fairness, every frame that is left alone until the next DECODE is
decoded some time, by the first DECODE, which clears it. Under a consumer that decodes only what is ready and is fair to it (log entry 16), every frame of 26 bits
or more left alone until then becomes ready and is decoded while it is. -/
def Obligations.FairConsumerDecodesEveryFrame : Prop :=
  ∀ (s : State) (tr : Nat → Instr) (n : Nat) (bits : List Bool), Inv s → UndisturbedFrom tr n →
    (runAfter s tr n).state.snapshot = .ok bits →
    (FairConsumer tr → ∃ m p, n ≤ m ∧ tr m = .decode ∧ (∀ k, n ≤ k → k < m → tr k ≠ .decode) ∧
      observedAt s tr m = some p ∧ p.card = some (frameRecord bits) ∧ (runAfter s tr (m + 1)).state.count = 0) ∧
    (PollingConsumer s tr n → 26 ≤ bits.length →
      ∃ m p, n ≤ m ∧ tr m = .decode ∧ (∀ k, n ≤ k → k < m → tr k ≠ .decode) ∧
        observedAt s tr m = some p ∧ p.ready = true ∧ p.card = some (frameRecord bits))

/-- Derived from R31: the reset values of WD, FIN, the accumulators and BUF cannot be observed. Two states that agree on COUNT = 0 and on
the parameters show the same at their ports over every trace, whatever else they hold. -/
def Obligations.OnlyCountIsObservableAtReset : Prop :=
  ∀ (s u : State) (tr : List Instr), s.count = 0 → u.count = 0 → s.cfg = u.cfg →
    (runFrom s tr).observation = (runFrom u tr).observation ∧
    (runFrom s tr).refusal = (runFrom u tr).refusal ∧ (runFrom s tr).fault = (runFrom u tr).fault

-- The inactivity window.

/-- R105 and R107: after any pulse, accepted or dropped, WD = T_WAIT, FIN = 0 and `ready` = 0, and its step completes whatever the
state. -/
def Obligations.PulseIsNeverReadyAndNeverWaits : Prop :=
  ∀ (b : Bool) (s : State), ∃ t, exec (if b then .pulse1 else .pulse0) s = .next t ∧
    t.wd = s.cfg.tWait ∧ t.fin = false ∧ t.ready = false

/-- R123: a frame of fewer than 26 bits never becomes ready, however many ticks pass; it stays in the buffer and the next bit extends
it. -/
def Obligations.ShortFrameNeverBecomesReady : Prop :=
  ∀ (s : State) (tr : List Instr), s.count < 26 → (∀ i ∈ tr, isQuiet i = true) →
    (runFrom s tr).state.ready = false ∧ (∀ b ∈ (runFrom s tr).results, b = false) ∧
    (runFrom s tr).state.count = s.count ∧ (runFrom s tr).state.buf = s.buf ∧
    (s.cfg.wellFormed = true → ∀ b : Bool, ∃ t,
      exec (if b then .pulse1 else .pulse0) (runFrom s tr).state = .next t ∧ t.count = s.count + 1 ∧
      Memory.read s.count t.buf = some b ∧ ∀ k, k ≠ s.count → Memory.read k t.buf = Memory.read k s.buf)

/-- R124: the exact window. From a state with COUNT >= 26 that a pulse reached, `ready` is 1 exactly where T_WAIT TICK events have been
performed with no pulse, DECODE or RESET among them, and a pulse, DECODE or RESET ends it. -/
def Obligations.ReadyRisesAfterExactlyTheWindow : Prop :=
  ∀ (b : Bool) (s0 s : State) (tr : List Instr), Inv s0 → exec (if b then .pulse1 else .pulse0) s0 = .next s →
    26 ≤ s.count → (∀ i ∈ tr, isQuiet i = true) →
    (runFrom s tr).state.ready = decide (s.cfg.tWait ≤ tickCount tr) ∧
    (∀ (i : Instr) (t : State), (isPulse i = true ∨ clearsFrame i = true) →
      exec i (runFrom s tr).state = .next t → t.ready = false) ∧
    (∀ (i : Instr) (t : State), isPulse i = true → exec i (runFrom s tr).state = .next t →
      ∀ more : List Instr, (∀ j ∈ more, isQuiet j = true) →
        (runFrom t more).state.ready = decide (s.cfg.tWait ≤ tickCount more))

/-- R125: the down-counter agrees with the source's timestamp. After every trace from power-on that has performed a pulse since reset,
with d = now - last ticks since that pulse, FIN = 1 exactly when d >= T_WAIT, WD = max(0, T_WAIT - d), and `ready` needs nothing
else but COUNT >= 26. -/
def Obligations.WatchdogAgreesWithTheTimestamp : Prop :=
  ∀ (c : Config) (tr : List Instr) (d : Nat), c.wellFormed = true → ticksSincePulse tr = some d →
    (runFrom (State.powerOn c []) tr).state.fin = decide (c.tWait ≤ d) ∧
    (runFrom (State.powerOn c []) tr).state.wd = c.tWait - d ∧
    ((runFrom (State.powerOn c []) tr).state.ready = true ↔
      (c.tWait ≤ d ∧ 26 ≤ (runFrom (State.powerOn c []) tr).state.count))

/-- Derived from R127: without TICK events no frame becomes ready, whatever else happens, and without RESET events either FIN, once
cleared, never rises. -/
def Obligations.WithoutTicksNothingBecomesReady : Prop :=
  (∀ (c : Config) (tr : List Instr), (∀ i ∈ tr, i ≠ .tick) →
    (runFrom (State.powerOn c []) tr).state.ready = false ∧ ∀ b ∈ (runFrom (State.powerOn c []) tr).results, b = false) ∧
  (∀ (s : State) (tr : List Instr), s.fin = false → (∀ i ∈ tr, i ≠ .tick ∧ i ≠ .reset) → (runFrom s tr).state.fin = false)

-- The record.

/-- R153: the closed form. In every state of the invariant with a 26-bit frame, DECODE's record is a function of the frame read as one
number V, and so are the texts: the binary text is the frame, and the proxmark text is `200`, a digit of 4 to 7, and six digits. -/
def Obligations.RecordOfA26BitFrameInClosedForm : Prop :=
  ∀ (s t : State) (bits : List Bool), Inv s → s.count = 26 → s.snapshot = .ok bits → exec .decode s = .next t →
    ∃ c, t.sampleCard = .next c ∧ c = frameRecord bits ∧
      binaryText c.binaryDigits = bits.map (fun b => if b then '1' else '0') ∧
      proxmarkText c.compositeValue =
        ['2', '0', '0', lowerDigit (4 + fold bits / 2 ^ 24)] ++ (digitsOf 16 6 (fold bits % 2 ^ 24)).map lowerDigit

/-- R154: a frame of any other length. Every field but `bit_count` is zero, whatever the frame holds, and so are the texts. -/
def Obligations.RecordOfAnyOtherLengthIsZero : Prop :=
  ∀ (s t : State), s.count ≠ 26 → exec .decode s = .next t →
    ∃ c, t.sampleCard = .next c ∧ c = ⟨s.count, 0, 0, 0, 0, 0⟩ ∧
      binaryText c.binaryDigits = List.replicate 26 '0' ∧ hexText c.hexValue = ['0'] ∧
      proxmarkText c.compositeValue = List.replicate 7 '0'

/-- R148 and R149: the binary text of every record is 26 characters '0' or '1', the low two bits of PRE and the 24 of CD (the composite's
low 26 bits, R147) with the most significant first, and folded left to right it is the hex value. -/
def Obligations.BinaryTextFoldsToTheHexValue : Prop :=
  ∀ (s t : State) (c : CardRecord), exec .decode s = .next t → t.sampleCard = .next c →
    (binaryText c.binaryDigits).length = 26 ∧ (∀ ch ∈ binaryText c.binaryDigits, ch = '0' ∨ ch = '1') ∧
    (∀ k, k < 26 → (binaryText c.binaryDigits)[k]? = some (if c.compositeValue.getLsbD (25 - k) then '1' else '0')) ∧
    fold ((binaryText c.binaryDigits).map (· == '1')) = c.hexValue.toNat

/-- R150: the texts as numerals. `hex_value` in upper-case hexadecimal, the two codes in decimal and PRE in lower-case hexadecimal, each
with no leading zeros and `0` for zero; CD as exactly six lower-case digits. -/
def Obligations.TextsAreTheNumeralsOfTheFields : Prop :=
  ∀ c : CardRecord,
    (∃ ds : List Nat, (renderCard c).hexValue = ds.map upperDigit ∧ (∀ d ∈ ds, d < 16) ∧ ds ≠ [] ∧
      (ds.head? = some 0 → ds = [0]) ∧ ds.foldl (fun v d => 16 * v + d) 0 = c.hexValue.toNat) ∧
    (∃ ds : List Nat, (renderCard c).facilityCode = ds.map lowerDigit ∧ (∀ d ∈ ds, d < 10) ∧ ds ≠ [] ∧
      (ds.head? = some 0 → ds = [0]) ∧ ds.foldl (fun v d => 10 * v + d) 0 = c.facilityCode.toNat) ∧
    (∃ ds : List Nat, (renderCard c).uniqueCode = ds.map lowerDigit ∧ (∀ d ∈ ds, d < 10) ∧ ds ≠ [] ∧
      (ds.head? = some 0 → ds = [0]) ∧ ds.foldl (fun v d => 10 * v + d) 0 = c.uniqueCode.toNat) ∧
    (∃ ps ds : List Nat, (renderCard c).proxmark = (ps ++ ds).map lowerDigit ∧ (∀ d ∈ ps ++ ds, d < 16) ∧ ps ≠ [] ∧
      (ps.head? = some 0 → ps = [0]) ∧ ps.foldl (fun v d => 16 * v + d) 0 = c.compositeValue.toNat / 2 ^ 24 ∧
      ds.length = 6 ∧ ds.foldl (fun v d => 16 * v + d) 0 = c.compositeValue.toNat % 2 ^ 24) ∧
    (renderCard c).binaryValue = (List.range 26).map (fun k => if c.binaryDigits.getLsbD (25 - k) then '1' else '0') ∧
    "0123456789abcdef".toList = (List.range 16).map lowerDigit ∧
    "0123456789ABCDEF".toList = (List.range 16).map upperDigit

-- Frames, from power-on.

/-- R122: a frame is the bits captured between two DECODE (or RESET) events, in arrival order, the first CAP of them (R103, R142). From
power-on, after any events and a DECODE or RESET, the next DECODE's record is that of the pulses since. -/
def Obligations.FrameIsTheBitsSinceTheLastClear : Prop :=
  ∀ (c : Config) (before after : List Instr) (clear : Instr), c.wellFormed = true → clearsFrame clear = true →
    (∀ i ∈ after, clearsFrame i = false) →
    (runFrom (State.powerOn c []) (before ++ [clear] ++ after ++ [.decode])).cards =
      (runFrom (State.powerOn c []) (before ++ [clear])).cards ++ [frameRecord ((pulseBits after).take c.cap)]

/-- Derived from R124, R141 and R152 (the scenario of 95_test_vectors.md W1, P1) for every 26-bit card and every choice of parameters:
sent from power-on, it is not ready at once, is ready after the window, is decoded once, and is not ready again. -/
def Obligations.OneCardIsDecodedOnce : Prop :=
  ∀ (c : Config) (bits : List Bool), c.wellFormed = true → bits.length = 26 →
    let r := (Run.start (State.powerOn c [])).performItems [.send bits, .event .ready, .wait, .event .ready, .poll, .poll]
    r.clean ∧ r.results = [false, true, true, false] ∧ r.cards = [frameRecord bits]

/-- Derived from R233: a 26-bit card read after k stray bits is a frame of 26 + k bits with zero fields, however long the silence
between; that decode clears the buffer, and the next card decodes normally. -/
def Obligations.StrayBitsSpoilExactlyOneCard : Prop :=
  ∀ (c : Config) (stray card next : List Bool) (n : Nat), c.wellFormed = true → card.length = 26 → next.length = 26 →
    1 ≤ stray.length → stray.length < 26 → 26 + stray.length ≤ c.cap →
    let r := (Run.start (State.powerOn c [])).performItems
      [.send stray, .ticks n, .poll, .send card, .wait, .poll, .send next, .wait, .poll]
    r.clean ∧ r.results = [false, true, true] ∧ r.cards = [zeroRecord (26 + stray.length), frameRecord next]

/-- Derived from R234: two 26-bit transmissions separated by fewer than T_WAIT ticks form one 52-bit frame with zero fields, and the first
never becomes a ready frame on its own. -/
def Obligations.CloseTransmissionsMerge : Prop :=
  ∀ (c : Config) (first second : List Bool) (n : Nat), c.wellFormed = true → first.length = 26 → second.length = 26 →
    n < c.tWait → 52 ≤ c.cap →
    let r := (Run.start (State.powerOn c [])).performItems
      [.send first, .ticks n, .event .ready, .send second, .wait, .poll]
    r.clean ∧ r.results = [false, true] ∧ r.cards = [zeroRecord 52]

/-- Derived from R103, R142 and R237: a transmission of any length keeps its first CAP bits, and its record says CAP where it was longer.
With CAP = 26 a longer one is decoded as its first 26 bits. -/
def Obligations.OverrunKeepsTheFirstBits : Prop :=
  ∀ (c : Config) (bits : List Bool), c.wellFormed = true →
    (runFrom (State.powerOn c []) (bits.map pulseOf ++ [.decode])).cards = [frameRecord (bits.take c.cap)] ∧
    (frameRecord (bits.take c.cap)).bitCount = min bits.length c.cap

/-- R152: exactly one record per ready frame. A DECODE emits one record, after it COUNT is 0 and `ready` is 0, and no number of further
polls returns 1 or decodes again. Any number of polls of a ready frame, at least one, emits that one record and no other. -/
def Obligations.ReadyFrameIsDecodedExactlyOnce : Prop :=
  ∀ s : State, Inv s → ∃ t c, exec .decode s = .next t ∧ t.cardValid = true ∧ t.sampleCard = .next c ∧
    c.bitCount = s.count ∧ t.count = 0 ∧ t.ready = false ∧
    (∀ n : Nat, ((Run.start t).performItems (List.replicate n .poll)).cards = [] ∧
      ((Run.start t).performItems (List.replicate n .poll)).results = List.replicate n false) ∧
    (s.ready = true → ∀ n : Nat,
      ((Run.start s).performItems (List.replicate (n + 1) .poll)).cards = [c] ∧
      ((Run.start s).performItems (List.replicate (n + 1) .poll)).results = true :: List.replicate n false)

/-- R57: READY changes nothing and may be repeated with no effect; DECODE is a destructive read, and a second one right after it decodes
an empty frame. -/
def Obligations.DecodeIsADestructiveReadAndReadyIsNot : Prop :=
  ∀ s : State, Inv s →
    (∃ t u, exec .ready s = .next t ∧ SameBlock s t ∧ exec .ready t = .next u ∧ SameBlock s u ∧
      u.out.map (·.result) = t.out.map (·.result)) ∧
    (∃ t u, exec .decode s = .next t ∧ t.count = 0 ∧ t.accA = 0 ∧ t.accB = 0 ∧
      exec .decode t = .next u ∧ u.sampleCard = .next (zeroRecord 0))

-- Events issued at once: both orders.

/-- R60: two pulses that arrive at the same time take either order. The frames differ only in the order of those two bits (each cut at
CAP, R103), and COUNT, WD and FIN are the same. -/
def Obligations.SimultaneousPulsesDifferOnlyInTheirOrder : Prop :=
  ∀ (s : State) (bits : List Bool), Inv s → s.snapshot = .ok bits →
    let t := (runFrom s [.pulse0, .pulse1]).state
    let u := (runFrom s [.pulse1, .pulse0]).state
    t.snapshot = .ok ((bits ++ [false, true]).take s.cfg.cap) ∧ u.snapshot = .ok ((bits ++ [true, false]).take s.cfg.cap) ∧
    t.count = u.count ∧ t.wd = u.wd ∧ t.fin = u.fin ∧ t.cfg = u.cfg

/-- R212: the two orders of a pulse and a DECODE. Pulse first: its bit is in the record (unless the buffer was full, R103), and the next
frame starts empty. DECODE first: the record is the frame without it, and it is frame bit 0 of the next frame. -/
def Obligations.PulseAndDecodeInEitherOrder : Prop :=
  ∀ (b : Bool) (s : State) (bits : List Bool), Inv s → s.snapshot = .ok bits →
    let p := runFrom s [if b then .pulse1 else .pulse0, .decode]
    let q := runFrom s [.decode, if b then .pulse1 else .pulse0]
    p.clean ∧ p.cards = [frameRecord ((bits ++ [b]).take s.cfg.cap)] ∧ p.state.snapshot = .ok [] ∧
    q.clean ∧ q.cards = [frameRecord bits] ∧ q.state.snapshot = .ok [b]

/-- R213: the two orders of a pulse and a TICK. TICK first: WD is T_WAIT and FIN is 0. Pulse first: the tick takes WD to T_WAIT - 1, and
sets FIN exactly if T_WAIT = 1. -/
def Obligations.PulseAndTickInEitherOrder : Prop :=
  ∀ (b : Bool) (s : State), Inv s →
    let t := (runFrom s [.tick, if b then .pulse1 else .pulse0]).state
    let u := (runFrom s [if b then .pulse1 else .pulse0, .tick]).state
    t.wd = s.cfg.tWait ∧ t.fin = false ∧ u.wd + 1 = s.cfg.tWait ∧ (u.fin = true ↔ s.cfg.tWait = 1) ∧
    t.snapshot = u.snapshot

/-- R232: a pulse between READY and DECODE. DECODE decodes a frame one bit longer than READY saw (unless the buffer was full, R103); for
a 26-bit card the record has `bit_count` 27 and zero fields. -/
def Obligations.PulseBetweenReadyAndDecodeSpoilsTheCard : Prop :=
  ∀ (b : Bool) (s : State) (bits : List Bool), Inv s → s.ready = true → s.snapshot = .ok bits →
    let r := runFrom s [.ready, if b then .pulse1 else .pulse0, .decode]
    r.clean ∧ r.results = [true] ∧ r.cards = [frameRecord ((bits ++ [b]).take s.cfg.cap)] ∧
    (s.count = 26 → 26 < s.cfg.cap → r.cards = [zeroRecord 27])
end

