-- ==== Sys2Proof/Laws/State.lean ====
section
/-! SUPPORT. What each shared operation of Machine/Ops.lean does to each field of State: one lemma a field, so that no later proof unfolds
a record update. -/

namespace Sys2Proof.Machine

-- An accepted bit (R100, R101).
@[simp] theorem State.appendBit_count (b : Bool) (s : State) : (s.appendBit b).count = s.count + 1 := rfl
@[simp] theorem State.appendBit_buf (b : Bool) (s : State) : (s.appendBit b).buf = Memory.write s.count b s.buf := rfl
@[simp] theorem State.appendBit_accA (b : Bool) (s : State) : (s.appendBit b).accA = (if s.count < 22 then shiftIn s.accA b else s.accA) := rfl
@[simp] theorem State.appendBit_accB (b : Bool) (s : State) : (s.appendBit b).accB = (if s.count < 22 then s.accB else shiftIn s.accB b) := rfl
@[simp] theorem State.appendBit_wd (b : Bool) (s : State) : (s.appendBit b).wd = s.wd := rfl
@[simp] theorem State.appendBit_fin (b : Bool) (s : State) : (s.appendBit b).fin = s.fin := rfl
@[simp] theorem State.appendBit_cfg (b : Bool) (s : State) : (s.appendBit b).cfg = s.cfg := rfl
@[simp] theorem State.appendBit_pending (b : Bool) (s : State) : (s.appendBit b).pending = s.pending := rfl
@[simp] theorem State.appendBit_out (b : Bool) (s : State) : (s.appendBit b).out = s.out := rfl

-- The activity of a pulse (R105).
@[simp] theorem State.activity_count (s : State) : (s.activity).count = s.count := rfl
@[simp] theorem State.activity_buf (s : State) : (s.activity).buf = s.buf := rfl
@[simp] theorem State.activity_accA (s : State) : (s.activity).accA = s.accA := rfl
@[simp] theorem State.activity_accB (s : State) : (s.activity).accB = s.accB := rfl
@[simp] theorem State.activity_wd (s : State) : (s.activity).wd = s.cfg.tWait := rfl
@[simp] theorem State.activity_fin (s : State) : (s.activity).fin = false := rfl
@[simp] theorem State.activity_cfg (s : State) : (s.activity).cfg = s.cfg := rfl
@[simp] theorem State.activity_pending (s : State) : (s.activity).pending = s.pending := rfl
@[simp] theorem State.activity_out (s : State) : (s.activity).out = s.out := rfl

-- The clear of a decode (R151).
@[simp] theorem State.clearFrame_count (s : State) : (s.clearFrame).count = 0 := rfl
@[simp] theorem State.clearFrame_buf (s : State) : (s.clearFrame).buf = Memory.cleared := rfl
@[simp] theorem State.clearFrame_accA (s : State) : (s.clearFrame).accA = 0 := rfl
@[simp] theorem State.clearFrame_accB (s : State) : (s.clearFrame).accB = 0 := rfl
@[simp] theorem State.clearFrame_wd (s : State) : (s.clearFrame).wd = s.wd := rfl
@[simp] theorem State.clearFrame_fin (s : State) : (s.clearFrame).fin = s.fin := rfl
@[simp] theorem State.clearFrame_cfg (s : State) : (s.clearFrame).cfg = s.cfg := rfl
@[simp] theorem State.clearFrame_pending (s : State) : (s.clearFrame).pending = s.pending := rfl
@[simp] theorem State.clearFrame_out (s : State) : (s.clearFrame).out = s.out := rfl

-- The reset configuration (R31).
@[simp] theorem State.resetBlock_count (s : State) : (s.resetBlock).count = 0 := rfl
@[simp] theorem State.resetBlock_buf (s : State) : (s.resetBlock).buf = Memory.cleared := rfl
@[simp] theorem State.resetBlock_accA (s : State) : (s.resetBlock).accA = 0 := rfl
@[simp] theorem State.resetBlock_accB (s : State) : (s.resetBlock).accB = 0 := rfl
@[simp] theorem State.resetBlock_wd (s : State) : (s.resetBlock).wd = 0 := rfl
@[simp] theorem State.resetBlock_fin (s : State) : (s.resetBlock).fin = true := rfl
@[simp] theorem State.resetBlock_cfg (s : State) : (s.resetBlock).cfg = s.cfg := rfl
@[simp] theorem State.resetBlock_pending (s : State) : (s.resetBlock).pending = s.pending := rfl
@[simp] theorem State.resetBlock_out (s : State) : (s.resetBlock).out = s.out := rfl

-- The ports of a step (R70): they change no other field.
@[simp] theorem State.drive_count (i : Instr) (r : Option Bool) (c : Option CardRecord) (s t : State) :
    (State.drive i r c s t).count = t.count := rfl
@[simp] theorem State.drive_buf (i : Instr) (r : Option Bool) (c : Option CardRecord) (s t : State) :
    (State.drive i r c s t).buf = t.buf := rfl
@[simp] theorem State.drive_accA (i : Instr) (r : Option Bool) (c : Option CardRecord) (s t : State) :
    (State.drive i r c s t).accA = t.accA := rfl
@[simp] theorem State.drive_accB (i : Instr) (r : Option Bool) (c : Option CardRecord) (s t : State) :
    (State.drive i r c s t).accB = t.accB := rfl
@[simp] theorem State.drive_wd (i : Instr) (r : Option Bool) (c : Option CardRecord) (s t : State) :
    (State.drive i r c s t).wd = t.wd := rfl
@[simp] theorem State.drive_fin (i : Instr) (r : Option Bool) (c : Option CardRecord) (s t : State) :
    (State.drive i r c s t).fin = t.fin := rfl
@[simp] theorem State.drive_cfg (i : Instr) (r : Option Bool) (c : Option CardRecord) (s t : State) :
    (State.drive i r c s t).cfg = t.cfg := rfl
@[simp] theorem State.drive_pending (i : Instr) (r : Option Bool) (c : Option CardRecord) (s t : State) :
    (State.drive i r c s t).pending = t.pending := rfl
@[simp] theorem State.drive_out (i : Instr) (r : Option Bool) (c : Option CardRecord) (s t : State) :
    (State.drive i r c s t).out = some ⟨i, s.ready, r, c⟩ := rfl

-- A pulse (R100, R101, R103): its two cases, and the fields on which they agree.
theorem State.capture_of_lt (b : Bool) {s : State} (h : s.count < s.cfg.cap) : s.capture b = (s.appendBit b).activity := by
  simp [State.capture, h]

theorem State.capture_of_ge (b : Bool) {s : State} (h : s.cfg.cap ≤ s.count) : s.capture b = s.activity := by
  simp [State.capture, Nat.not_lt.mpr h]

@[simp] theorem State.capture_wd (b : Bool) (s : State) : (s.capture b).wd = s.cfg.tWait := by
  unfold State.capture; split <;> rfl
@[simp] theorem State.capture_fin (b : Bool) (s : State) : (s.capture b).fin = false := by
  unfold State.capture; split <;> rfl
@[simp] theorem State.capture_cfg (b : Bool) (s : State) : (s.capture b).cfg = s.cfg := by
  unfold State.capture; split <;> rfl
@[simp] theorem State.capture_pending (b : Bool) (s : State) : (s.capture b).pending = s.pending := by
  unfold State.capture; split <;> rfl
@[simp] theorem State.capture_out (b : Bool) (s : State) : (s.capture b).out = s.out := by
  unfold State.capture; split <;> rfl

-- One count of the watchdog (R120): its two cases, and the fields it leaves alone.
theorem State.countDown_of_fin {s : State} (h : s.fin = true) : s.countDown = s := by
  simp [State.countDown, h]

theorem State.countDown_of_not_fin {s : State} (h : s.fin = false) :
    s.countDown = { s with wd := s.wd - 1, fin := expired (s.wd - 1) } := by
  simp [State.countDown, h]


@[simp] theorem State.countDown_count (s : State) : s.countDown.count = s.count := by
  unfold State.countDown; split <;> rfl
@[simp] theorem State.countDown_buf (s : State) : s.countDown.buf = s.buf := by
  unfold State.countDown; split <;> rfl
@[simp] theorem State.countDown_accA (s : State) : s.countDown.accA = s.accA := by
  unfold State.countDown; split <;> rfl
@[simp] theorem State.countDown_accB (s : State) : s.countDown.accB = s.accB := by
  unfold State.countDown; split <;> rfl
@[simp] theorem State.countDown_cfg (s : State) : s.countDown.cfg = s.cfg := by
  unfold State.countDown; split <;> rfl
@[simp] theorem State.countDown_pending (s : State) : s.countDown.pending = s.pending := by
  unfold State.countDown; split <;> rfl
@[simp] theorem State.countDown_out (s : State) : s.countDown.out = s.out := by
  unfold State.countDown; split <;> rfl

-- Power-on (R31, R230).

@[simp] theorem State.powerOn_count (c : Config) (tr : List EventCode) : (State.powerOn c tr).count = 0 := rfl
@[simp] theorem State.powerOn_buf (c : Config) (tr : List EventCode) : (State.powerOn c tr).buf = [] := rfl
@[simp] theorem State.powerOn_accA (c : Config) (tr : List EventCode) : (State.powerOn c tr).accA = 0 := rfl
@[simp] theorem State.powerOn_accB (c : Config) (tr : List EventCode) : (State.powerOn c tr).accB = 0 := rfl
@[simp] theorem State.powerOn_wd (c : Config) (tr : List EventCode) : (State.powerOn c tr).wd = 0 := rfl
@[simp] theorem State.powerOn_fin (c : Config) (tr : List EventCode) : (State.powerOn c tr).fin = true := rfl
@[simp] theorem State.powerOn_cfg (c : Config) (tr : List EventCode) : (State.powerOn c tr).cfg = c := rfl
@[simp] theorem State.powerOn_pending (c : Config) (tr : List EventCode) : (State.powerOn c tr).pending = tr := rfl
@[simp] theorem State.powerOn_out (c : Config) (tr : List EventCode) : (State.powerOn c tr).out = none := rfl

-- The flags (R25, R120).
theorem State.ready_eq (s : State) : s.ready = (s.fin && decide (26 ≤ s.count)) := rfl

@[simp] theorem expired_iff (w : Nat) : expired w = true ↔ w = 0 := by simp [expired]

/-- `ready` reads FIN and COUNT only (R25, R57). -/
theorem State.ready_congr {s t : State} (hf : t.fin = s.fin) (hc : t.count = s.count) : t.ready = s.ready := by
  simp [State.ready, hf, hc]

@[simp] theorem State.ready_drive (i : Instr) (r : Option Bool) (c : Option CardRecord) (s t : State) :
    (State.drive i r c s t).ready = t.ready := rfl

@[simp] theorem State.ready_capture (b : Bool) (s : State) : (s.capture b).ready = false := by
  simp [State.ready]

@[simp] theorem State.ready_clearFrame (s : State) : s.clearFrame.ready = false := by
  simp [State.ready]

@[simp] theorem State.ready_resetBlock (s : State) : s.resetBlock.ready = false := by
  simp [State.ready]

end Sys2Proof.Machine
end

