-- ==== Sys2Proof/Laws/Memory.lean ====
section
/-! SUPPORT. The frame buffer: a read after a write, the canonical form, and the snapshot of a run of cells. -/

namespace Sys2Proof.Machine

@[simp] theorem Memory.read_nil (i : Nat) : Memory.read i [] = none := rfl

@[simp] theorem Memory.read_cleared (i : Nat) : Memory.read i Memory.cleared = none := rfl

theorem Memory.read_cons (i j : Nat) (b : Bool) (m : Memory) :
    Memory.read i ((j, b) :: m) = if i = j then some b else Memory.read i m := rfl

/-- A read after a write: the written cell has the bit, every other cell is as before. No form of the list is assumed. -/
theorem Memory.read_write (i k : Nat) (b : Bool) (m : Memory) :
    Memory.read k (Memory.write i b m) = if k = i then some b else Memory.read k m := by
  induction m with
  | nil => simp [Memory.write, Memory.read_cons]
  | cons x m ih =>
    obtain ⟨j, c⟩ := x
    unfold Memory.write
    split
    · simp [Memory.read_cons]
    · split
      · subst_vars
        simp only [Memory.read_cons]
        split <;> rfl
      · simp only [Memory.read_cons, ih]
        split
        · subst_vars
          simp_all [eq_comm]
        · rfl

@[simp] theorem Memory.read_write_self (i : Nat) (b : Bool) (m : Memory) :
    Memory.read i (Memory.write i b m) = some b := by simp [Memory.read_write]

theorem Memory.read_write_of_ne {i k : Nat} (h : k ≠ i) (b : Bool) (m : Memory) :
    Memory.read k (Memory.write i b m) = Memory.read k m := by simp [Memory.read_write, h]

/-- The cells of a written buffer are the written one and those there before. -/
theorem Memory.mem_write {x : Nat × Bool} {i : Nat} {b : Bool} {m : Memory} (h : x ∈ Memory.write i b m) :
    x = (i, b) ∨ x ∈ m := by
  induction m with
  | nil => simpa [Memory.write] using h
  | cons y m ih =>
    obtain ⟨j, c⟩ := y
    unfold Memory.write at h
    split at h
    · simpa using h
    · split at h
      · rcases List.mem_cons.mp h with h | h
        · exact .inl h
        · exact .inr (List.mem_cons_of_mem _ h)
      · rcases List.mem_cons.mp h with h | h
        · exact .inr (h ▸ List.mem_cons_self)
        · rcases ih h with h | h
          · exact .inl h
          · exact .inr (List.mem_cons_of_mem _ h)

theorem Memory.cleared_wf : Memory.wf Memory.cleared := List.Pairwise.nil

/-- A write keeps the canonical form. -/
theorem Memory.write_wf {m : Memory} (h : Memory.wf m) (i : Nat) (b : Bool) : Memory.wf (Memory.write i b m) := by
  induction m with
  | nil => simp [Memory.write, Memory.wf]
  | cons x m ih =>
    obtain ⟨j, c⟩ := x
    obtain ⟨hx, hm⟩ := List.pairwise_cons.mp h
    unfold Memory.write
    split
    · rename_i hij
      refine List.pairwise_cons.mpr ⟨fun y hy => ?_, h⟩
      rcases List.mem_cons.mp hy with rfl | hy
      · exact hij
      · exact Nat.lt_trans hij (hx y hy)
    · split
      · subst_vars
        exact List.pairwise_cons.mpr ⟨hx, hm⟩
      · rename_i hlt hne
        refine List.pairwise_cons.mpr ⟨fun y hy => ?_, ih hm⟩
        rcases Memory.mem_write hy with rfl | hy
        · show j < i
          omega
        · exact hx y hy

/-- A snapshot answers as many bits as it was asked for. -/
theorem Memory.length_of_readBits {m : Memory} {len : Nat} : ∀ {i : Nat} {bits : List Bool},
    Memory.readBits m i len = .ok bits → bits.length = len := by
  induction len with
  | zero => intro i bits h; cases h; rfl
  | succ n ih =>
    intro i bits h
    unfold Memory.readBits at h
    split at h
    · cases h
    · split at h
      · cases h
        rename_i hb
        simp [ih hb]
      · cases h

/-- A snapshot of written cells answers. -/
theorem Memory.readBits_ok {m : Memory} {len : Nat} : ∀ {i : Nat},
    (∀ k, i ≤ k → k < i + len → (Memory.read k m).isSome = true) → ∃ bits, Memory.readBits m i len = .ok bits := by
  induction len with
  | zero => intro i _; exact ⟨[], rfl⟩
  | succ n ih =>
    intro i h
    obtain ⟨b, hb⟩ := Option.isSome_iff_exists.mp (h i (Nat.le_refl i) (by omega))
    obtain ⟨bits, hbits⟩ := ih (i := i + 1) (fun k h1 h2 => h k (by omega) (by omega))
    exact ⟨b :: bits, by simp [Memory.readBits, hb, hbits]⟩

/-- The bits of a snapshot are the cells' values, in index order. -/
theorem Memory.getElem_of_readBits {m : Memory} {len : Nat} : ∀ {i : Nat} {bits : List Bool},
    Memory.readBits m i len = .ok bits → ∀ k, k < len → bits[k]? = Memory.read (i + k) m := by
  induction len with
  | zero => intro i bits _ k hk; omega
  | succ n ih =>
    intro i bits h k hk
    unfold Memory.readBits at h
    split at h
    · cases h
    · rename_i b hb
      split at h
      · rename_i rest hrest
        cases h
        cases k with
        | zero => simpa using hb.symm
        | succ k =>
          have := ih hrest k (by omega)
          simpa [Nat.add_assoc, Nat.add_comm 1 k] using this
      · cases h

/-- A snapshot reads no cell outside its range. -/
theorem Memory.readBits_congr {m m' : Memory} {len : Nat} : ∀ {i : Nat},
    (∀ k, i ≤ k → k < i + len → Memory.read k m' = Memory.read k m) → Memory.readBits m' i len = Memory.readBits m i len := by
  induction len with
  | zero => intro i _; rfl
  | succ n ih =>
    intro i h
    unfold Memory.readBits
    rw [h i (Nat.le_refl i) (by omega), ih (i := i + 1) (fun k h1 h2 => h k (by omega) (by omega))]

/-- A snapshot one cell longer has that cell's bit at its end. -/
theorem Memory.readBits_succ {m : Memory} {len : Nat} : ∀ {i : Nat} {bits : List Bool} {b : Bool},
    Memory.readBits m i len = .ok bits → Memory.read (i + len) m = some b → Memory.readBits m i (len + 1) = .ok (bits ++ [b]) := by
  induction len with
  | zero =>
    intro i bits b h hb
    cases h
    have hb' : Memory.read i m = some b := hb
    simp [Memory.readBits, hb']
  | succ n ih =>
    intro i bits b h hb
    unfold Memory.readBits at h
    split at h
    · cases h
    · rename_i c hc
      split at h
      · rename_i rest hrest
        cases h
        have := ih hrest (b := b) (by rwa [show i + 1 + n = i + (n + 1) by omega])
        rw [Memory.readBits, hc]
        simp [this]
      · cases h

/-- An append at COUNT extends the frame by the bit (R22, R100). -/
theorem State.snapshot_appendBit {s : State} {bits : List Bool} (h : s.snapshot = .ok bits) (b : Bool) :
    (s.appendBit b).snapshot = .ok (bits ++ [b]) := by
  unfold State.snapshot at h ⊢
  simp only [State.appendBit_buf, State.appendBit_count]
  apply Memory.readBits_succ
  · rw [Memory.readBits_congr, h]
    intro k _ hk
    exact Memory.read_write_of_ne (by omega) b _
  · simp

theorem State.snapshot_congr {s t : State} (hb : t.buf = s.buf) (hc : t.count = s.count) : t.snapshot = s.snapshot := by
  simp [State.snapshot, hb, hc]

theorem State.length_of_snapshot {s : State} {bits : List Bool} (h : s.snapshot = .ok bits) : bits.length = s.count :=
  Memory.length_of_readBits h

/-- Where every cell below COUNT holds a value, the snapshot answers (R26). -/
theorem State.snapshot_ok {s : State} (h : ∀ i, i < s.count → (Memory.read i s.buf).isSome = true) :
    ∃ bits, s.snapshot = .ok bits :=
  Memory.readBits_ok (fun k _ hk => h k (by omega))

@[simp] theorem State.snapshot_powerOn (c : Config) (tr : List EventCode) : (State.powerOn c tr).snapshot = .ok [] := rfl

@[simp] theorem State.snapshot_clearFrame (s : State) : s.clearFrame.snapshot = .ok [] := rfl

@[simp] theorem State.snapshot_resetBlock (s : State) : s.resetBlock.snapshot = .ok [] := rfl

end Sys2Proof.Machine
end

