-- ==== Sys2Proof/Laws/Exec.lean ====
section
/-! SUPPORT. What each event does, once: the equation of its meaning, and what `exec` can have done when it answers a next state. -/

namespace Sys2Proof.Machine

@[simp] theorem exec_nop (s : State) : exec .nop s = .next (State.drive .nop none none s s) := rfl

@[simp] theorem exec_pulse0 (s : State) : exec .pulse0 s = .next (State.drive .pulse0 none none s (s.capture false)) := rfl

@[simp] theorem exec_pulse1 (s : State) : exec .pulse1 s = .next (State.drive .pulse1 none none s (s.capture true)) := rfl

@[simp] theorem exec_tick (s : State) : exec .tick s = .next (State.drive .tick none none s s.countDown) := rfl

@[simp] theorem exec_ready (s : State) : exec .ready s = .next (State.drive .ready (some s.ready) none s s) := rfl

@[simp] theorem exec_reset (s : State) : exec .reset s = .next (State.drive .reset none none s s.resetBlock) := rfl

@[simp] theorem exec_reserved (s : State) : exec .reserved s = .refused .reservedCode := rfl

theorem exec_decode_of_ok {s : State} {bits : List Bool} (h : s.snapshot = .ok bits) :
    exec .decode s =
      .next (State.drive .decode none (some (cardRecord bits s.count s.accA s.accB)) s s.clearFrame) := by
  show execDecode s = _
  simp [execDecode, h]

theorem exec_decode_of_error {s : State} {i : Nat} (h : s.snapshot = .error i) :
    exec .decode s = .fault (.unwrittenCell i) := by
  show execDecode s = _
  simp [execDecode, h]

/-- What an event can have done when it answers a next state: the ports are driven over one of the shared operations. -/
theorem exec_next_cases {i : Instr} {s t : State} (h : exec i s = .next t) :
    ((i = .nop ∨ i = .ready) ∧ ∃ r, t = State.drive i r none s s) ∨
    (∃ b, i = (if b then .pulse1 else .pulse0) ∧ t = State.drive i none none s (s.capture b)) ∨
    (i = .tick ∧ t = State.drive i none none s s.countDown) ∨
    (i = .decode ∧ ∃ bits, s.snapshot = .ok bits ∧
      t = State.drive i none (some (cardRecord bits s.count s.accA s.accB)) s s.clearFrame) ∨
    (i = .reset ∧ t = State.drive i none none s s.resetBlock) := by
  cases i with
  | nop => cases h; exact .inl ⟨.inl rfl, _, rfl⟩
  | ready => cases h; exact .inl ⟨.inr rfl, _, rfl⟩
  | pulse0 => cases h; exact .inr (.inl ⟨false, rfl, rfl⟩)
  | pulse1 => cases h; exact .inr (.inl ⟨true, rfl, rfl⟩)
  | tick => cases h; exact .inr (.inr (.inl ⟨rfl, rfl⟩))
  | reset => cases h; exact .inr (.inr (.inr (.inr ⟨rfl, rfl⟩)))
  | reserved => cases h
  | decode =>
    cases hs : s.snapshot with
    | error k => rw [exec_decode_of_error hs] at h; cases h
    | ok bits =>
      rw [exec_decode_of_ok hs] at h
      cases h
      exact .inr (.inr (.inr (.inl ⟨rfl, bits, rfl, rfl⟩)))

end Sys2Proof.Machine
end

