-- ==== Sys2Proof/Laws/Fields.lean ====
section
/-! SUPPORT. The fold (R10), the accumulators' shift (R27, R28) and the parts of the record (R145 to R148) as numbers. -/

namespace Sys2Proof.Machine

@[simp] theorem fold_nil : fold [] = 0 := rfl

/-- R10: `fold(s ++ [b]) = 2 * fold(s) + b`. -/
@[simp] theorem fold_append_single (bits : List Bool) (b : Bool) : fold (bits ++ [b]) = 2 * fold bits + b.toNat := by
  simp [fold]

/-- The fold of a frame in two parts. -/
theorem fold_append (xs ys : List Bool) : fold (xs ++ ys) = fold xs * 2 ^ ys.length + fold ys := by
  induction ys using List.reverseRecOn with
  | nil => simp
  | append_singleton ys b ih =>
    rw [← List.append_assoc, fold_append_single, ih, fold_append_single, List.length_append, List.length_singleton, pow_succ]
    ring

theorem fold_lt (bits : List Bool) : fold bits < 2 ^ bits.length := by
  induction bits using List.reverseRecOn with
  | nil => simp
  | append_singleton bits b ih =>
    rw [fold_append_single, List.length_append, List.length_singleton, pow_succ]
    have := Bool.toNat_le b
    omega

/-- The shift of R27 and R28 as a number. -/
theorem toNat_shiftIn (a : Acc) (b : Bool) : (shiftIn a b).toNat = (2 * a.toNat + b.toNat) % 2 ^ 26 := by
  have h : shiftIn a b = BitVec.ofNat 26 (2 * a.toNat + b.toNat) := by
    apply BitVec.eq_of_getLsbD_eq
    intro i hi
    rw [BitVec.getLsbD_ofNat]
    cases i with
    | zero => cases b <;> simp [shiftIn, Nat.testBit_zero]
    | succ i =>
      have e : (2 * a.toNat + b.toNat) / 2 = a.toNat := by
        cases b
        · simp
        · simp; omega
      rw [Nat.testBit_succ, e]
      show _ = (decide _ && a.getLsbD i)
      cases b <;> simp [shiftIn, BitVec.getLsbD_or, BitVec.getLsbD_shiftLeft, -BitVec.getLsbD_eq_getElem]
  rw [h, BitVec.toNat_ofNat]

/-- `(x << k) | y` as a number, where `y` is below `2^k` and no bit of `x` is shifted out. -/
theorem toNat_shift_or {n w v k : Nat} (x : BitVec w) (y : BitVec v) (hw : w + k ≤ n) (hv : v ≤ k) :
    ((x.setWidth n <<< k) ||| y.setWidth n).toNat = x.toNat * 2 ^ k + y.toNat := by
  have hx : x.toNat * 2 ^ k < 2 ^ n := by
    calc x.toNat * 2 ^ k < 2 ^ w * 2 ^ k := Nat.mul_lt_mul_of_pos_right x.isLt (Nat.two_pow_pos k)
      _ = 2 ^ (w + k) := (pow_add 2 w k).symm
      _ ≤ 2 ^ n := Nat.pow_le_pow_right (by decide) hw
  have hy : y.toNat < 2 ^ k := lt_of_lt_of_le y.isLt (Nat.pow_le_pow_right (by decide) hv)
  have hyn : y.toNat < 2 ^ n := lt_of_lt_of_le y.isLt (Nat.pow_le_pow_right (by decide) (by omega))
  have hxn : x.toNat < 2 ^ n := lt_of_lt_of_le x.isLt (Nat.pow_le_pow_right (by decide) (by omega))
  rw [BitVec.toNat_or, BitVec.toNat_shiftLeft, BitVec.toNat_setWidth, BitVec.toNat_setWidth, Nat.mod_eq_of_lt hxn,
    Nat.mod_eq_of_lt hyn, Nat.shiftLeft_eq, Nat.mod_eq_of_lt hx, ← Nat.shiftLeft_eq, ← Nat.shiftLeft_add_eq_or_of_lt hy,
    Nat.shiftLeft_eq]

/-- R146 as a number. -/
theorem toNat_cardData (a b : Acc) : (cardData a b).toNat = a.toNat % 2 ^ 20 * 2 ^ 4 + b.toNat % 2 ^ 4 := by
  rw [cardData, toNat_shift_or _ _ (by decide) (by decide), BitVec.extractLsb'_toNat, BitVec.extractLsb'_toNat]
  simp

theorem toNat_extract_bit (a : Acc) (k : Nat) : (a.extractLsb' k 1).toNat = (a.getLsbD k).toNat := by
  rw [BitVec.extractLsb'_toNat, BitVec.getLsbD, Nat.toNat_testBit, Nat.shiftRight_eq_div_pow, pow_one]

/-- R145 as a number: the constant and the two bits do not overlap. -/
theorem toNat_preamble (a : Acc) : (preamble a).toNat = 0x2004 + 2 * (a.getLsbD 21).toNat + (a.getLsbD 20).toNat := by
  have h : ∀ x y : BitVec 1,
      (0x2004#20 ||| (x.setWidth 20 <<< 1) ||| y.setWidth 20).toNat = 0x2004 + 2 * x.toNat + y.toNat := by decide
  rw [preamble, h, toNat_extract_bit, toNat_extract_bit]

/-- R148 as a number. -/
theorem toNat_binaryDigits (p : BitVec 20) (d : BitVec 24) :
    (binaryDigits p d).toNat = p.toNat % 4 * 2 ^ 24 + d.toNat := by
  rw [binaryDigits, toNat_shift_or _ _ (by decide) (by decide), BitVec.extractLsb'_toNat]
  simp

/-- R147 as a number. -/
theorem toNat_compositeValue (p : BitVec 20) (d : BitVec 24) :
    (compositeValue p d).toNat = p.toNat * 2 ^ 24 + d.toNat :=
  toNat_shift_or p d (by decide) (by decide)

theorem cardRecord_of_ne {n : Nat} (h : n ≠ 26) (bits : List Bool) (a b : Acc) :
    cardRecord bits n a b = ⟨n, 0, 0, 0, 0, 0⟩ := by
  simp [cardRecord, h, recordOf, compositeValue, binaryDigits]

theorem cardRecord_of_eq (bits : List Bool) (a b : Acc) :
    cardRecord bits 26 a b = recordOf 26 (facilityCode bits) (uniqueCode bits) (preamble a) (cardData a b) := rfl

@[simp] theorem cardRecord_bitCount (bits : List Bool) (n : Nat) (a b : Acc) : (cardRecord bits n a b).bitCount = n := by
  unfold cardRecord; split <;> rfl

end Sys2Proof.Machine
end

