-- ==== Sys2Proof/Laws/PerInstr.lean ====
section
/-! SUPPORT. A statement about each instruction as syntax: it is well-formed exactly when its code is not the reserved one (R73). -/

namespace Sys2Proof.Laws.UnreservedCode

/-- An event the block may be sent has a code other than 110, and the reserved event has that one. -/
def Statement (i : Instr) : Prop := i.wellFormed = true ↔ encode i ≠ 0b110#3

theorem nop : Statement .nop := by unfold Statement; decide
theorem pulse0 : Statement .pulse0 := by unfold Statement; decide
theorem pulse1 : Statement .pulse1 := by unfold Statement; decide
theorem tick : Statement .tick := by unfold Statement; decide
theorem ready : Statement .ready := by unfold Statement; decide
theorem decode : Statement .decode := by unfold Statement; decide
theorem reserved : Statement .reserved := by unfold Statement; decide
theorem reset : Statement .reset := by unfold Statement; decide

end Sys2Proof.Laws.UnreservedCode
end

