-- ==== Sys2Proof/Laws/Render.lean ====
section
/-! SUPPORT. The rendering of a record (R150): its fields, and the digits of a number. -/

namespace Sys2Proof.Machine

@[simp] theorem renderCard_binaryValue (c : CardRecord) : (renderCard c).binaryValue = binaryText c.binaryDigits := by rw [renderCard]

@[simp] theorem renderCard_hexValue (c : CardRecord) : (renderCard c).hexValue = hexText c.hexValue := by rw [renderCard]

@[simp] theorem renderCard_facilityCode (c : CardRecord) : (renderCard c).facilityCode = facilityText c.facilityCode := by rw [renderCard]

@[simp] theorem renderCard_uniqueCode (c : CardRecord) : (renderCard c).uniqueCode = uniqueText c.uniqueCode := by rw [renderCard]

@[simp] theorem renderCard_proxmark (c : CardRecord) : (renderCard c).proxmark = proxmarkText c.compositeValue := by rw [renderCard]

theorem length_digitsOf (base width : Nat) : ∀ n, (digitsOf base width n).length = width := by
  induction width with
  | zero => intro n; rfl
  | succ w ih => intro n; simp [digitsOf, ih]

theorem digitsOf_lt {base : Nat} (hb : 0 < base) (width : Nat) : ∀ n, ∀ d ∈ digitsOf base width n, d < base := by
  induction width with
  | zero => intro n d hd; simp [digitsOf] at hd
  | succ w ih =>
    intro n d hd
    rw [digitsOf, List.mem_append] at hd
    rcases hd with hd | hd
    · exact ih _ d hd
    · rw [List.mem_singleton.mp hd]; exact Nat.mod_lt _ hb

/-- The digits of a number, folded, are the number cut to that many digits. -/
theorem foldl_digitsOf (base width : Nat) :
    ∀ n, (digitsOf base width n).foldl (fun v d => base * v + d) 0 = n % base ^ width := by
  induction width with
  | zero => intro n; simp [digitsOf, Nat.mod_one]
  | succ w ih =>
    intro n
    rw [digitsOf, List.foldl_append, ih]
    simp only [List.foldl_cons, List.foldl_nil]
    rw [pow_succ', Nat.mod_mul, Nat.add_comm]

@[simp] theorem trimZeros_zero_cons (ds : List Nat) : trimZeros (0 :: ds) = trimZeros ds := by simp [trimZeros]

theorem trimZeros_cons_of_ne {d : Nat} (h : d ≠ 0) (ds : List Nat) : trimZeros (d :: ds) = d :: ds := by
  simp [trimZeros, h]

/-- A binary digit's character. -/
theorem lowerDigit_toNat (b : Bool) : lowerDigit b.toNat = if b = true then '1' else '0' := by
  cases b <;> decide

end Sys2Proof.Machine
end

