-- ==== Sys2Proof/Laws/Step.lean ====
section
/-! SUPPORT. One step: the trace's next code, decoded and performed. -/

namespace Sys2Proof.Machine

theorem step_of_nil {s : State} (h : s.pending = []) : step s = .refused .traceEnded := by
  simp [step, State.fetch, h]

theorem step_of_cons {s : State} {ev : EventCode} {rest : List EventCode} (h : s.pending = ev :: rest) :
    step s = exec (decode ev) { s with pending := rest } := by
  simp [step, State.fetch, h]

/-- A step that answers a next state performed the event of the first pending code. -/
theorem step_next_cases {s t : State} (h : step s = .next t) :
    ∃ ev rest, s.pending = ev :: rest ∧ exec (decode ev) { s with pending := rest } = .next t := by
  cases hp : s.pending with
  | nil => rw [step_of_nil hp] at h; cases h
  | cons ev rest => exact ⟨ev, rest, rfl, (step_of_cons hp).symm.trans h⟩

/-- A run of the host's interface, one step at a time (over any core, so that its state type is the core's own). -/
theorem core_run_succ {M : Host.Core} {n : Nat} {s t : M.State} (h : M.step s = .next t) :
    M.run (n + 1) s = M.run n t := by
  rw [Host.Core.run, h]

@[simp] theorem pending_withFetchWord (s : State) (nbits w : Nat) :
    (s.withFetchWord nbits w).pending = BitVec.ofNat 3 (w % 2 ^ nbits) :: s.pending := rfl

/-- The step after a placed code performs that code's event on the state it was placed in. -/
theorem step_withFetchWord (s : State) (nbits w : Nat) :
    step (s.withFetchWord nbits w) = exec (decode (BitVec.ofNat 3 (w % 2 ^ nbits))) s :=
  step_of_cons rfl

end Sys2Proof.Machine
end

