-- ==== Sys2Proof/Laws/Run.lean ====
section
/-! SUPPORT. Runs: a trace performed event by event, in one part or in two. -/

namespace Sys2Proof.Machine

@[simp] theorem Run.performAll_nil (r : Run) : r.performAll [] = r := rfl

@[simp] theorem Run.performAll_cons (r : Run) (i : Instr) (tr : List Instr) :
    r.performAll (i :: tr) = (r.perform i).performAll tr := rfl

/-- A trace in two parts. -/
theorem Run.performAll_append (r : Run) (xs ys : List Instr) :
    r.performAll (xs ++ ys) = (r.performAll xs).performAll ys := List.foldl_append

/-- An event that answers a next state: the state moves on, and its ports join the observation. -/
theorem Run.perform_of_next {r : Run} {i : Instr} {t : State} (hf : r.fault = none) (h : exec i r.state = .next t) :
    r.perform i = { r with state := t, observation := r.observation ++ t.out.toList } := by
  simp [Run.perform, hf, h]

/-- A refused event is recorded, where none was before, and changes nothing else (R203). -/
theorem Run.perform_of_refused {r : Run} {i : Instr} {why : Refusal} (hf : r.fault = none)
    (h : exec i r.state = .refused why) : r.perform i = { r with refusal := r.refusal.or (some why) } := by
  simp [Run.perform, hf, h]

theorem Run.perform_of_fault {r : Run} {i : Instr} {why : Fault} (hf : r.fault = none)
    (h : exec i r.state = .fault why) : r.perform i = { r with fault := some why } := by
  simp [Run.perform, hf, h]

@[simp] theorem Run.start_state (s : State) : (Run.start s).state = s := rfl

@[simp] theorem Run.start_observation (s : State) : (Run.start s).observation = [] := rfl

@[simp] theorem Run.start_refusal (s : State) : (Run.start s).refusal = none := rfl

@[simp] theorem Run.start_fault (s : State) : (Run.start s).fault = none := rfl

/-- The observation grows by what the ports show, in every case. -/
theorem Run.observation_perform (r : Run) (i : Instr) :
    (r.perform i).observation = r.observation ++ (r.shows i).toList := by
  unfold Run.perform Run.shows
  split
  · simp
  · split <;> simp

theorem Run.shows_of_next {r : Run} {i : Instr} {t : State} (hf : r.fault = none) (h : exec i r.state = .next t) :
    r.shows i = t.out := by
  simp [Run.shows, hf, h]

@[simp] theorem runAfter_zero (s : State) (tr : Nat → Instr) : runAfter s tr 0 = Run.start s := rfl

@[simp] theorem runAfter_succ (s : State) (tr : Nat → Instr) (n : Nat) :
    runAfter s tr (n + 1) = (runAfter s tr n).perform (tr n) := rfl

@[simp] theorem firstEvents_zero (tr : Nat → Instr) : firstEvents tr 0 = [] := rfl

theorem firstEvents_succ (tr : Nat → Instr) (n : Nat) : firstEvents tr (n + 1) = firstEvents tr n ++ [tr n] := by
  simp [firstEvents, List.range_succ]

end Sys2Proof.Machine
end

