-- ==== Sys2Proof/Laws/Safety.lean ====
section
/-! SUPPORT. The parts of the invariant that later proofs cite, and what one event of a run can have done. -/

namespace Sys2Proof.Machine

/-- The constraints of R8, apart. -/
theorem Config.limits_of_wellFormed {c : Config} (h : c.wellFormed = true) :
    26 ≤ c.cap ∧ 1 ≤ c.tWait ∧ c.tWait < 2 ^ c.wdw := by
  simpa [Config.wellFormed, and_assoc] using h

/-- Under the invariant the snapshot answers (R26). -/
theorem Inv.snapshot {s : State} (h : Inv s) : ∃ bits, s.snapshot = .ok bits :=
  State.snapshot_ok fun i hi => by simpa [hi] using h.written i

/-- The invariant reads the six elements and the parameters only; WD and FIN stand apart from the frame. -/
theorem Inv.of_same_frame {s t : State} (h : Inv s) (hc : t.count = s.count) (hb : t.buf = s.buf) (ha : t.accA = s.accA)
    (ha' : t.accB = s.accB) (hp : t.cfg = s.cfg) (hf : t.fin = true ↔ t.wd = 0) (hw : t.wd ≤ t.cfg.tWait) : Inv t := by
  have hs := State.snapshot_congr hb hc
  refine ⟨hp ▸ h.params, by rw [hc, hp]; exact h.count_le, hf, hw, by rw [hb]; exact h.bufWf, ?_, ?_, ?_⟩
  · intro i; rw [hb, hc]; exact h.written i
  · intro bits hbits; rw [ha]; exact h.accA_eq bits (hs ▸ hbits)
  · intro bits hbits; rw [ha']; exact h.accB_eq bits (hs ▸ hbits)

/-- The cells of a buffer whose indexes all lie below `n` hold no value from `n` on. -/
theorem Memory.read_of_all_lt {m : Memory} {n i : Nat} (h : ∀ x ∈ m, x.1 < n) (hi : n ≤ i) : Memory.read i m = none := by
  induction m with
  | nil => rfl
  | cons x m ih =>
    obtain ⟨j, b⟩ := x
    have : j < n := h _ List.mem_cons_self
    rw [Memory.read_cons, if_neg (by omega)]
    exact ih fun y hy => h y (List.mem_cons_of_mem _ hy)

/-- What one event of a run can have done: left the state, or moved to the event's next state and shown its ports. -/
theorem Run.perform_cases (r : Run) (i : Instr) :
    ((r.perform i).state = r.state ∧ (r.perform i).observation = r.observation) ∨
    (∃ t, exec i r.state = .next t ∧
      r.perform i = { r with state := t, observation := r.observation ++ t.out.toList }) := by
  unfold Run.perform
  split
  · exact .inl ⟨rfl, rfl⟩
  · split
    · rename_i t h; exact .inr ⟨t, h, rfl⟩
    · exact .inl ⟨rfl, rfl⟩
    · exact .inl ⟨rfl, rfl⟩

end Sys2Proof.Machine
end

