-- ==== Sys2Proof/Tests/Slice0.lean ====
section
/-! SUPPORT. Tests of the model, one step each, with results from the spec's rules and from the vectors of spec/95_test_vectors.md (its
ids C, T, D, X, W stand in the comments); and a witness for the hypotheses of every statement that has some. -/

namespace Sys2Proof.Tests

open Sys2Proof Sys2Proof.Machine

-- Helpers: a state that holds a frame, and the state an outcome answers.

/-- The parameters of the vectors: CAP = 100, T_WAIT = 3. -/
def vectorConfig : Config := ⟨100, 3, 32⟩

/-- The least capacity the constraints admit (C10, P4). -/
def tightConfig : Config := ⟨26, 3, 32⟩

/-- Bits in the cells from `i` on. -/
def cellsFrom (i : Nat) : List Bool → Memory
  | [] => []
  | b :: bs => (i, b) :: cellsFrom (i + 1) bs

/-- The state that has captured `bits`, with the given WD and FIN. -/
def withFrame (c : Config) (bits : List Bool) (wd : Nat) (fin : Bool) : State where
  count := bits.length
  buf := cellsFrom 0 bits
  accA := BitVec.ofNat 26 (fold (bits.take 22))
  accB := BitVec.ofNat 26 (fold (bits.drop 22))
  wd := wd
  fin := fin
  cfg := c
  pending := []
  out := none

/-- A bit string as the spec writes it. -/
def bitsOf (s : String) : List Bool := s.toList.map (· == '1')

/-- The frame of the spec's worked scenario (W1). -/
def cardW1 : List Bool := bitsOf "01100000011101011001010010"

/-- A ready 26-bit frame. -/
def readyCard : State := withFrame vectorConfig cardW1 0 true

/-- A ready frame that fills its buffer. -/
def fullCard : State := withFrame tightConfig cardW1 0 true

/-- The state an outcome answers. -/
def after (o : Host.Outcome State Fault Refusal) : Option State :=
  match o with
  | .next t => some t
  | .fault _ => none
  | .refused _ => none

/-- The record an outcome's step drives. -/
def cardAfter (o : Host.Outcome State Fault Refusal) : Option CardRecord :=
  (after o).bind (fun t => t.out.bind (·.card))

-- A state with a frame meets the invariant.

theorem cellsFrom_ge (bits : List Bool) : ∀ i, ∀ x ∈ cellsFrom i bits, i ≤ x.1 ∧ x.1 < i + bits.length := by
  induction bits with
  | nil => intro i x hx; simp [cellsFrom] at hx
  | cons b bs ih =>
    intro i x hx
    rcases List.mem_cons.mp hx with rfl | hx
    · simp
    · have := ih (i + 1) x hx
      simp only [List.length_cons]
      omega

theorem cellsFrom_wf (bits : List Bool) : ∀ i, Memory.wf (cellsFrom i bits) := by
  induction bits with
  | nil => intro i; exact List.Pairwise.nil
  | cons b bs ih => intro i; exact List.pairwise_cons.mpr ⟨fun x hx => (cellsFrom_ge bs (i + 1) x hx).1, ih (i + 1)⟩

theorem read_cellsFrom (bits : List Bool) : ∀ i k, Memory.read (i + k) (cellsFrom i bits) = bits[k]? := by
  induction bits with
  | nil => intro i k; rfl
  | cons b bs ih =>
    intro i k
    cases k with
    | zero => simp [cellsFrom, Memory.read_cons]
    | succ k =>
      rw [cellsFrom, Memory.read_cons, if_neg (by omega), show i + (k + 1) = i + 1 + k by omega, ih]
      rfl

theorem snapshot_withFrame (c : Config) (bits : List Bool) (wd : Nat) (fin : Bool) :
    (withFrame c bits wd fin).snapshot = .ok bits := by
  obtain ⟨bs, hb⟩ := Memory.readBits_ok (m := cellsFrom 0 bits) (i := 0) (len := bits.length) (by
    intro k _ hk
    have := read_cellsFrom bits 0 k
    rw [Nat.zero_add] at this
    rw [this, List.getElem?_eq_getElem (by omega)]
    rfl)
  have hl := Memory.length_of_readBits hb
  have : bs = bits := by
    apply List.ext_getElem? fun k => ?_
    by_cases hk : k < bits.length
    · rw [Memory.getElem_of_readBits hb k hk, read_cellsFrom]
    · rw [List.getElem?_eq_none (by omega), List.getElem?_eq_none (by omega)]
  exact this ▸ hb

theorem inv_withFrame {c : Config} {bits : List Bool} {wd : Nat} {fin : Bool} (hc : c.wellFormed = true)
    (hl : bits.length ≤ c.cap) (hf : fin = true ↔ wd = 0) (hw : wd ≤ c.tWait) : Inv (withFrame c bits wd fin) := by
  refine ⟨hc, hl, hf, hw, cellsFrom_wf bits 0, ?_, ?_, ?_⟩
  · intro i
    have := read_cellsFrom bits 0 i
    rw [Nat.zero_add] at this
    show (Memory.read i (cellsFrom 0 bits)).isSome = decide (i < bits.length)
    rw [this]
    by_cases hi : i < bits.length <;> simp [hi]
  · intro bs hb
    rw [snapshot_withFrame] at hb
    cases hb
    show (BitVec.ofNat 26 (fold (bits.take 22))).toNat = _
    rw [BitVec.toNat_ofNat, Nat.mod_eq_of_lt]
    exact lt_of_lt_of_le (fold_lt _) (Nat.pow_le_pow_right (by decide) (by simp))
  · intro bs hb
    rw [snapshot_withFrame] at hb
    cases hb
    exact BitVec.toNat_ofNat _ _

theorem inv_readyCard : Inv readyCard := inv_withFrame (by decide) (by decide) (by decide) (by decide)

theorem inv_fullCard : Inv fullCard := inv_withFrame (by decide) (by decide) (by decide) (by decide)

theorem snapshot_readyCard : readyCard.snapshot = .ok cardW1 := snapshot_withFrame _ _ _ _

theorem snapshot_fullCard : fullCard.snapshot = .ok cardW1 := snapshot_withFrame _ _ _ _

-- Well-formedness: each check refuses a term that fails it alone.

/-- R73: the reserved event may not be sent. -/
theorem test_reserved_is_ill_formed : Instr.reserved.wellFormed = false := by decide

/-- R8: `26 <= CAP`. -/
theorem test_capacity_25_is_refused : (Config.mk 25 3 32).wellFormed = false := by decide

/-- R8: `1 <= T_WAIT`. -/
theorem test_window_0_is_refused : (Config.mk 26 0 32).wellFormed = false := by decide

/-- R8: `2^WDW > T_WAIT`, here at `T_WAIT = 2^WDW`. -/
theorem test_window_beyond_the_counter_is_refused : (Config.mk 26 8 3).wellFormed = false := by decide

/-- The bounds themselves are accepted, and so are the spec's defaults, with CW = 7 (R8). -/
theorem test_limits_are_accepted : (Config.mk 26 7 3).wellFormed = true ∧ Config.reference.wellFormed = true ∧
    Config.reference.cw = 7 := by decide

/-- The canonical form refuses two entries out of order and one cell listed twice. -/
theorem test_unordered_cells_are_refused :
    ¬ Memory.wf [(1, true), (0, true)] ∧ ¬ Memory.wf [(0, true), (0, false)] ∧ Memory.wf [(0, true), (1, false)] := by decide

-- Decoding: the codes of R72, written out bit by bit.

theorem test_decode_nop : decodeWord 0b000 = .ok .nop := by decide
theorem test_decode_pulse0 : decodeWord 0b001 = .ok .pulse0 := by decide
theorem test_decode_pulse1 : decodeWord 0b010 = .ok .pulse1 := by decide
theorem test_decode_tick : decodeWord 0b011 = .ok .tick := by decide
theorem test_decode_ready : decodeWord 0b100 = .ok .ready := by decide
theorem test_decode_decode : decodeWord 0b101 = .ok .decode := by decide
theorem test_decode_reserved : decodeWord 0b110 = .ok .reserved := by decide
theorem test_decode_reset : decodeWord 0b111 = .ok .reset := by decide

/-- A word with a bit above `ev[2]` is no code. -/
theorem test_decode_wide_word : decodeWord 0b1000 = .error (.notAnEventCode 8) ∧ decodeTableWord 8 0b1000 = none := by decide

/-- The table's row width, in whole bytes. -/
theorem test_decode_table_word : decodeTableWord 8 0b101 = some .decode := by decide

/-- P6's tail `111 100 101` (R77). -/
theorem test_encode_trace : encodeTrace [.reset, .ready, .decode] = [0b111#3, 0b100#3, 0b101#3] := by decide

-- Trace text (R77, R78).

theorem test_parse_trace :
    parseTrace "SEND 101 ; 3 stray pulses\nTICKS 10\n\nREADY\n  POLL\nWAIT ; 3 TICK\nPULSE1".toList =
      .ok [.send [true, false, true], .ticks 10, .event .ready, .poll, .wait, .event .pulse1] := by decide

/-- The reserved code has no mnemonic, and a mnemonic has no operand. -/
theorem test_parse_bad_lines :
    parseTrace "RESERVED".toList = .error (.badLine ["RESERVED".toList]) ∧
    parseTrace "TICK 3".toList = .error (.badLine ["TICK".toList, "3".toList]) ∧
    parseTrace "SEND 102".toList = .error (.badLine ["SEND".toList, "102".toList]) := by decide

/-- R77: one mnemonic a line; the reserved code, which has none, is not lost but refused (log entry 11). -/
theorem test_print_trace :
    printTrace [.tick, .reset] = .ok "TICK\nRESET\n".toList ∧
    printTrace [.pulse1, .reserved, .tick] = .error (.noMnemonic .reserved) := by decide

-- The events.

/-- C1: PULSE0 from reset. -/
theorem test_pulse0_from_reset :
    (after (exec .pulse0 (State.powerOn vectorConfig []))).map (fun t => (t.count, Memory.read 0 t.buf, t.accA, t.wd, t.fin)) =
      some (1, some false, 0#26, 3, false) := by decide

/-- C3: bit 21 is the last into ACC_A. -/
theorem test_pulse0_last_into_a :
    (after (exec .pulse0 (withFrame vectorConfig (List.replicate 21 true) 3 false))).map (fun t => (t.count, t.accA, t.accB)) =
      some (22, 0x3FFFFE#26, 0#26) := by decide

/-- C4: bit 22 is the first into ACC_B. -/
theorem test_pulse1_first_into_b :
    (after (exec .pulse1 (withFrame vectorConfig (List.replicate 21 true ++ [false]) 3 false))).map
      (fun t => (t.count, t.accA, t.accB)) = some (23, 0x3FFFFE#26, 1#26) := by decide

/-- C10's capacity: a pulse on a full buffer stores nothing and restarts the window. -/
theorem test_pulse1_dropped_at_capacity :
    (after (exec .pulse1 fullCard)).map (fun t => (t.count, t.buf == fullCard.buf, t.accB == fullCard.accB, t.wd, t.fin)) =
      some (26, true, true, 3, false) := by decide

/-- T2: the tick that brings WD to 0 sets FIN, and a 26-bit frame is ready. -/
theorem test_tick_expires :
    (after (exec .tick (withFrame vectorConfig cardW1 1 false))).map (fun t => (t.wd, t.fin, t.ready)) =
      some (0, true, true) := by decide

/-- T3: at 0 with FIN = 1 a tick changes nothing and does not wrap. -/
theorem test_tick_idle :
    (after (exec .tick readyCard)).map (fun t => (t.wd, t.fin, t.count)) = some (0, true, 26) := by decide

/-- T6: READY of a ready frame. -/
theorem test_ready_of_a_ready_frame :
    (after (exec .ready readyCard)).bind (fun t => t.out.bind (·.result)) = some true := by decide

/-- T8: the minimum-length gate. -/
theorem test_ready_of_25_bits :
    (after (exec .ready (withFrame vectorConfig (List.replicate 25 true) 0 true))).bind (fun t => t.out.bind (·.result)) =
      some false := by decide

/-- W1, V1: the worked scenario's record. -/
theorem test_decode_w1 :
    cardAfter (exec .decode readyCard) = some ⟨26, 192, 60201, 0x200581D652, 0x181D652, 0b01100000011101011001010010⟩ := by decide

/-- D18: 27 bits give a record of zero fields, and COUNT is cleared. -/
theorem test_decode_27 :
    cardAfter (exec .decode (withFrame vectorConfig (List.replicate 27 true) 0 true)) = some ⟨27, 0, 0, 0, 0, 0⟩ ∧
    (after (exec .decode readyCard)).map (fun t => (t.count, t.buf, t.wd, t.fin)) = some (0, [], 0, true) := by decide

/-- X1: NOP is not a tick. -/
theorem test_nop_is_no_tick :
    (after (exec .nop (withFrame vectorConfig cardW1 2 false))).map (fun t => (t.wd, t.fin, t.count, t.cardValid)) =
      some (2, false, 26, false) := by decide

/-- X2: RESET discards the three bits and emits no record. -/
theorem test_reset_discards :
    (after (exec .reset (withFrame vectorConfig [true, false, true] 3 false))).map
      (fun t => (t.count, t.buf, t.accA, t.wd, t.fin, t.cardValid)) = some (0, [], 0#26, 0, true, false) := by decide

/-- X4: the reserved code is refused. -/
theorem test_reserved_is_refused : exec .reserved readyCard = .refused .reservedCode := rfl

/-- The next step after a placed code performs it, from reset. -/
theorem test_placed_word_is_performed :
    (after (step (State.reset.withFetchWord 8 0b010))).map (fun t => (t.count, t.wd, t.pending)) =
      some (1, 5000000, []) := by decide

/-- U1: a frame cell that holds no value stops DECODE, by name. -/
theorem test_unwritten_cell_faults :
    exec .decode { State.reset with count := 2, buf := [(0, true)] } = .fault (.unwrittenCell 1) := rfl

-- Texts (W1, D2, D14, D15).

theorem test_render_w1 :
    (renderCard (frameRecord cardW1)).hexValue = "181D652".toList ∧
    (renderCard (frameRecord cardW1)).facilityCode = "192".toList ∧
    (renderCard (frameRecord cardW1)).uniqueCode = "60201".toList ∧
    (renderCard (frameRecord cardW1)).proxmark = "200581d652".toList ∧
    (renderCard (frameRecord cardW1)).binaryValue = "01100000011101011001010010".toList := by decide

theorem test_render_zero_record :
    (renderCard (zeroRecord 27)).hexValue = "0".toList ∧ (renderCard (zeroRecord 27)).facilityCode = "0".toList ∧
    (renderCard (zeroRecord 27)).proxmark = "0000000".toList := by decide

-- Two infinite traces for the witness of the liveness statement.

/-- TICK, READY and DECODE in turns for ever. -/
def pollingTurns (n : Nat) : Instr := if n % 3 = 0 then .tick else if n % 3 = 1 then .ready else .decode

theorem pollingTurns_fair : FairConsumer pollingTurns := fun n =>
  ⟨⟨3 * n, by omega, by simp [pollingTurns]⟩, ⟨3 * n + 1, by omega, by simp [pollingTurns, Nat.add_mod]⟩,
    3 * n + 2, by omega, by simp [pollingTurns, Nat.add_mod]⟩

theorem pollingTurns_undisturbed : UndisturbedFrom pollingTurns 0 := by
  intro m _ _
  simp only [pollingTurns]
  split
  · decide
  · split <;> decide

/-- A DECODE, and TICKs for ever after it. -/
def decodeThenTicks (n : Nat) : Instr := if n = 0 then .decode else .tick

theorem decodeThenTicks_undisturbed : UndisturbedFrom decodeThenTicks 0 := by
  intro m _ _
  simp only [decodeThenTicks]
  split <;> decide

/-- After its DECODE the frame stays empty and nothing is ready. -/
theorem decodeThenTicks_empty (n : Nat) :
    (runAfter readyCard decodeThenTicks (n + 1)).state.count = 0 ∧ (runAfter readyCard decodeThenTicks (n + 1)).fault = none := by
  induction n with
  | zero => exact ⟨by decide, by decide⟩
  | succ n ih =>
    rw [runAfter_succ, show decodeThenTicks (n + 1) = .tick from rfl, Run.perform_of_next ih.2 (exec_tick _)]
    exact ⟨by simpa using ih.1, ih.2⟩

theorem decodeThenTicks_polling : PollingConsumer readyCard decodeThenTicks 0 where
  ticks k := ⟨k + 1, by omega, rfl⟩
  onlyReady m _ hd := by
    cases m with
    | zero => decide
    | succ m => cases hd
  answers k _ hr := absurd (hr (k + 1) (by omega)) (by rw [State.ready, (decodeThenTicks_empty k).1]; simp)

-- Witnesses: for each statement with hypotheses, states and operands that meet them together, at the ends of their ranges.

theorem witness_OnlyThreeBitWordsAreEvents : (7 < 8 ∧ decodeWord 7 = .ok .reset) ∧ (8 ≤ 8 ∧ decodeWord 8 = .error (.notAnEventCode 8)) := by
  decide

theorem witness_TraceTextAndEncodingReadBack :
    (∀ i ∈ namedEvents, i.wellFormed = true) ∧ Instr.reserved ∈ [Instr.pulse1, .reserved, .tick] := by decide

/-- POLL at the two ends of its test: WD = 1 with 26 bits, and WD = 2. -/
theorem witness_PseudoEventsExpandAsGiven :
    (Inv (withFrame vectorConfig cardW1 1 false) ∧ (withFrame vectorConfig cardW1 1 false).countDown.ready = true) ∧
    (Inv (withFrame vectorConfig cardW1 2 false) ∧ (withFrame vectorConfig cardW1 2 false).countDown.ready = false) :=
  ⟨⟨inv_withFrame (by decide) (by decide) (by decide) (by decide), by decide⟩,
    ⟨inv_withFrame (by decide) (by decide) (by decide) (by decide), by decide⟩⟩

theorem witness_StepPerformsTheNextEvent :
    (State.powerOn vectorConfig [0b101#3]).pending = 0b101#3 :: [] ∧ State.reset.pending = [] ∧ 3 ≤ 3 ∧ 7 < 8 := by decide

theorem witness_StepsReachTheStateOfTheRun :
    (runFrom { State.reset with pending := [] } ([0b001#3, 0b011#3, 0b101#3].map decode)).clean :=
  ⟨by decide, by decide⟩

theorem witness_ReadyLevelIsOfTheStateBefore :
    readyCard.ready = true ∧ ∃ t, exec .ready readyCard = .next t := ⟨by decide, _, rfl⟩

/-- Below capacity at the ends of the two accumulators, and at capacity. -/
theorem witness_PulseZeroAppendsZero :
    ((withFrame tightConfig (List.replicate 21 true) 3 false).count = 21 ∧ 21 < tightConfig.cap) ∧
    ((withFrame tightConfig (List.replicate 22 true) 3 false).count = 22 ∧ 22 < tightConfig.cap) ∧
    tightConfig.cap ≤ fullCard.count := by decide

theorem witness_PulseOneAppendsOne :
    ((withFrame tightConfig (List.replicate 25 true) 3 false).count < tightConfig.cap) ∧ tightConfig.cap ≤ fullCard.count ∧
    tightConfig.wellFormed = true := by decide

theorem witness_PulseAtCapacityIsDroppedButIsActivity : fullCard.count = fullCard.cfg.cap := by decide

/-- Room for one more bit, and none; a quiet trace one tick short of the window, and one that fills it. -/
theorem witness_LatePulseJoinsTheReadyFrame :
    (Inv readyCard ∧ readyCard.ready = true ∧ readyCard.count < readyCard.cfg.cap) ∧
    (Inv fullCard ∧ fullCard.ready = true ∧ fullCard.count = fullCard.cfg.cap) ∧
    (∀ i ∈ [Instr.tick, .ready, .tick, .nop], isQuiet i = true) ∧ tickCount [.tick, .ready, .tick, .nop] = 2 ∧
    (∀ i ∈ [Instr.tick, .tick, .tick], isQuiet i = true) ∧ tickCount [.tick, .tick, .tick] = 3 :=
  ⟨⟨inv_readyCard, by decide, by decide⟩, ⟨inv_fullCard, by decide, by decide⟩, by decide, by decide, by decide, by decide⟩

/-- FIN = 1; FIN = 0 with WD = 1 and with WD = 2. -/
theorem witness_TickCountsTheWatchdogDown :
    readyCard.fin = true ∧
    ((withFrame vectorConfig cardW1 1 false).fin = false ∧ 1 ≤ (withFrame vectorConfig cardW1 1 false).wd) ∧
    ((withFrame vectorConfig cardW1 2 false).fin = false ∧ 1 ≤ (withFrame vectorConfig cardW1 2 false).wd) := by decide

theorem witness_TickAtZeroNeverWraps :
    (withFrame vectorConfig cardW1 0 false).fin = false ∧ (withFrame vectorConfig cardW1 0 false).wd = 0 := by decide

theorem witness_DecodeEmitsTheRecordAndClears :
    (readyCard.snapshot = .ok cardW1 ∧ readyCard.count = 26) ∧
    ((withFrame vectorConfig (cardW1 ++ [true]) 3 false).snapshot = .ok (cardW1 ++ [true]) ∧
      (withFrame vectorConfig (cardW1 ++ [true]) 3 false).count ≠ 26) :=
  ⟨⟨snapshot_readyCard, by decide⟩, ⟨snapshot_withFrame _ _ _ _, by decide⟩⟩

theorem witness_DecodeCompletesUnderTheInvariant :
    Inv State.reset ∧ Inv fullCard ∧ Instr.tick ≠ .decode ∧ ∃ t, exec .tick readyCard = .next t :=
  ⟨inv_withFrame (c := Config.reference) (bits := []) (by decide) (by decide) (by decide) (by decide), inv_fullCard, by decide, _, rfl⟩

theorem witness_DecodeFaultsExactlyOnAnUnwrittenCell :
    exec .decode { State.reset with count := 2, buf := [(0, true)] } = .fault (.unwrittenCell 1) ∧ Inv readyCard :=
  ⟨rfl, inv_readyCard⟩

theorem witness_RefusalIsKeptAndLeavesTheState : (Run.start readyCard).fault = none := rfl

theorem witness_OnlyPerformedEventsAreObserved :
    ((Run.start readyCard).fault = none ∧ ∃ t, exec .tick (Run.start readyCard).state = .next t) ∧
    (∀ t, exec .reserved (Run.start readyCard).state ≠ .next t) ∧
    ({ Run.start readyCard with fault := some (.unwrittenCell 0) } : Run).fault ≠ none :=
  ⟨⟨rfl, _, rfl⟩, nofun, nofun⟩

theorem witness_CardIsSampledOnlyInADecodeStep :
    (∃ t, exec .decode readyCard = .next t) ∧ (∃ t, exec .reset readyCard = .next t ∧ Instr.reset ≠ .decode) :=
  ⟨⟨_, exec_decode_of_ok snapshot_readyCard⟩, ⟨_, rfl, by decide⟩⟩

/-- Each clause of the table: an event outside it that answers a next state. -/
theorem witness_OnlyListedEventsWriteEachElement :
    (∃ t, exec .tick readyCard = .next t) ∧ (∃ t, exec .decode readyCard = .next t) ∧ (∃ t, exec .nop readyCard = .next t) :=
  ⟨⟨_, rfl⟩, ⟨_, exec_decode_of_ok snapshot_readyCard⟩, ⟨_, rfl⟩⟩

theorem witness_FrameBufferIsReachedOnlyAtTheFrame :
    (∃ t, exec (if true then .pulse1 else .pulse0) readyCard = .next t) ∧
    (∀ k, k < State.reset.count → Memory.read k [(0, true)] = Memory.read k State.reset.buf) ∧
    (isQuiet .tick = true ∧ ∃ t, exec .tick readyCard = .next t) :=
  ⟨⟨_, rfl⟩, fun k hk => absurd hk (Nat.not_lt_zero k), rfl, _, rfl⟩

theorem witness_ParametersNeverChange :
    (∃ t, exec .reset readyCard = .next t) ∧ ∃ t, step (State.powerOn vectorConfig [0b111#3]) = .next t :=
  ⟨⟨_, rfl⟩, ⟨_, rfl⟩⟩

theorem witness_EventsKeepTheBufferCanonical : Memory.wf readyCard.buf ∧ ∃ t, exec .pulse1 readyCard = .next t :=
  ⟨inv_readyCard.bufWf, _, rfl⟩

theorem witness_InvariantHoldsAtPowerOn : tightConfig.wellFormed = true ∧ (Config.mk 26 1 1).wellFormed = true := by decide

theorem witness_EveryStepKeepsInv1ToInv5 :
    Inv { readyCard with pending := [0b010#3] } ∧ ∃ t, step { readyCard with pending := [0b010#3] } = .next t :=
  ⟨inv_readyCard.of_same_frame rfl rfl rfl rfl rfl inv_readyCard.fin_iff inv_readyCard.wd_le, _, rfl⟩

theorem witness_ReachableStatesMeetTheInvariants :
    tightConfig.wellFormed = true ∧ [Instr.pulse1, .decode, .tick] = [.pulse1] ++ .decode :: [.tick] ∧
    ∀ i ∈ [Instr.tick], isPulse i = false := by decide

theorem witness_CountsFitTheirWidths :
    Inv fullCard ∧ ∃ t c, exec .decode fullCard = .next t ∧ t.sampleCard = .next c :=
  ⟨inv_fullCard, _, _, exec_decode_of_ok snapshot_fullCard, rfl⟩

theorem witness_NoAgentsEventStopsTheBlock :
    tightConfig.wellFormed = true ∧ Interleaving [.pulse1] [.tick, .decode] [.reset] [.tick, .pulse1, .reset, .decode] :=
  ⟨by decide, .consumer rfl (.producer rfl (.host rfl (.consumer rfl .nil)))⟩

theorem witness_InterleavingKeepsEachAgentsOrder :
    Interleaving [.pulse0, .pulse1] [.ready] [] [.pulse0, .ready, .pulse1] ∧
    (∀ x ∈ [(Agent.host, Instr.nop), (.producer, .pulse0), (.consumer, .tick), (.producer, .pulse1), (.host, .reset)],
      x.1.mayIssue x.2 = true) :=
  ⟨.producer rfl (.consumer rfl (.producer rfl .nil)), by decide⟩

/-- The producer and the consumer in turns for ever. -/
theorem witness_InfiniteRunIsItsFiniteRuns :
    tightConfig.wellFormed = true ∧ AgentsTrace (fun n => if n % 2 = 0 then .producer else .consumer)
      (fun n => if n % 2 = 0 then .pulse1 else .tick) :=
  ⟨by decide, fun n => by cases Nat.mod_two_eq_zero_or_one n <;> simp_all [Agent.mayIssue]⟩

/-- A trace that meets both clauses on DECODE: its step 1, and every other. -/
theorem witness_InfiniteRunShowsEveryStep :
    tightConfig.wellFormed = true ∧ AgentsTrace (fun _ => .consumer) (fun n => if n = 1 then .decode else .ready) :=
  ⟨by decide, fun n => by by_cases h : n = 1 <;> simp [h, Agent.mayIssue]⟩

/-- A fair consumer in turns, and one that decodes the ready card at once and then finds nothing ready for ever. -/
theorem witness_FairConsumerDecodesEveryFrame :
    Inv readyCard ∧ readyCard.snapshot = .ok cardW1 ∧ 26 ≤ cardW1.length ∧
    (FairConsumer pollingTurns ∧ UndisturbedFrom pollingTurns 0) ∧
    (PollingConsumer readyCard decodeThenTicks 0 ∧ UndisturbedFrom decodeThenTicks 0) :=
  ⟨inv_readyCard, snapshot_readyCard, by decide, ⟨pollingTurns_fair, pollingTurns_undisturbed⟩,
    decodeThenTicks_polling, decodeThenTicks_undisturbed⟩

/-- Two states that differ in everything but COUNT and the parameters. -/
theorem witness_OnlyCountIsObservableAtReset :
    State.reset.count = 0 ∧ ({ State.reset with accA := 5, accB := 9, wd := 2, fin := false, buf := [(7, true)] } : State).count = 0 ∧
    State.reset.cfg = ({ State.reset with accA := 5, accB := 9, wd := 2, fin := false, buf := [(7, true)] } : State).cfg := by
  decide

theorem witness_ShortFrameNeverBecomesReady :
    (withFrame tightConfig (List.replicate 25 true) 1 false).count < 26 ∧ (∀ i ∈ [Instr.tick, .ready, .nop], isQuiet i = true) ∧
    (withFrame tightConfig (List.replicate 25 true) 1 false).cfg.wellFormed = true := by decide

/-- The 26th bit opens the window; a trace one tick short of it, and one that fills it; an event that ends it. -/
theorem witness_ReadyRisesAfterExactlyTheWindow :
    Inv (withFrame vectorConfig (List.replicate 25 true) 3 false) ∧
    (∃ s t, exec (if true then .pulse1 else .pulse0) (withFrame vectorConfig (List.replicate 25 true) 3 false) = .next s ∧
      26 ≤ s.count ∧ isPulse .pulse0 = true ∧ exec .pulse0 (runFrom s [.tick, .tick]).state = .next t) ∧
    (∀ i ∈ [Instr.tick, .tick, .nop], isQuiet i = true) ∧ (∀ i ∈ [Instr.tick, .tick, .tick], isQuiet i = true) ∧
    clearsFrame .decode = true :=
  ⟨inv_withFrame (by decide) (by decide) (by decide) (by decide), ⟨_, _, rfl, by decide, rfl, rfl⟩, by decide, by decide, rfl⟩

/-- One tick short of the window of 3, the window, and a reset that ends it. -/
theorem witness_WatchdogAgreesWithTheTimestamp :
    vectorConfig.wellFormed = true ∧ ticksSincePulse [.pulse1, .tick, .tick] = some 2 ∧
    ticksSincePulse [.pulse1, .tick, .pulse0, .tick, .tick, .tick] = some 3 ∧ ticksSincePulse [.pulse1, .reset, .tick] = none := by
  decide

theorem witness_WithoutTicksNothingBecomesReady :
    (∀ i ∈ [Instr.pulse1, .ready, .reset, .decode], i ≠ .tick) ∧ (withFrame vectorConfig cardW1 2 false).fin = false ∧
    (∀ i ∈ [Instr.pulse1, .ready, .decode], i ≠ .tick ∧ i ≠ .reset) := by decide

theorem witness_RecordOfA26BitFrameInClosedForm :
    Inv readyCard ∧ readyCard.count = 26 ∧ readyCard.snapshot = .ok cardW1 ∧ ∃ t, exec .decode readyCard = .next t :=
  ⟨inv_readyCard, by decide, snapshot_readyCard, _, exec_decode_of_ok snapshot_readyCard⟩

theorem witness_RecordOfAnyOtherLengthIsZero :
    (withFrame vectorConfig (List.replicate 25 true) 3 false).count ≠ 26 ∧
    ∃ t, exec .decode (withFrame vectorConfig (List.replicate 25 true) 3 false) = .next t :=
  ⟨by decide, _, exec_decode_of_ok (snapshot_withFrame _ _ _ _)⟩

theorem witness_BinaryTextFoldsToTheHexValue :
    ∃ t c, exec .decode readyCard = .next t ∧ t.sampleCard = .next c :=
  ⟨_, _, exec_decode_of_ok snapshot_readyCard, rfl⟩

theorem witness_FrameIsTheBitsSinceTheLastClear :
    tightConfig.wellFormed = true ∧ clearsFrame .decode = true ∧ clearsFrame .reset = true ∧
    ∀ i ∈ [Instr.pulse1, .tick, .pulse0], clearsFrame i = false := by decide

theorem witness_OneCardIsDecodedOnce : tightConfig.wellFormed = true ∧ cardW1.length = 26 := by decide

/-- The least and the most stray bits the statement covers, the most at the least capacity. -/
theorem witness_StrayBitsSpoilExactlyOneCard :
    (vectorConfig.wellFormed = true ∧ cardW1.length = 26 ∧ 1 ≤ [true].length ∧ [true].length < 26 ∧
      26 + [true].length ≤ vectorConfig.cap) ∧
    ((Config.mk 51 3 32).wellFormed = true ∧ 1 ≤ (List.replicate 25 true).length ∧ (List.replicate 25 true).length < 26 ∧
      26 + (List.replicate 25 true).length ≤ 51) := by decide

theorem witness_CloseTransmissionsMerge :
    (Config.mk 52 3 32).wellFormed = true ∧ cardW1.length = 26 ∧ 2 < (Config.mk 52 3 32).tWait ∧ 52 ≤ (Config.mk 52 3 32).cap := by
  decide

theorem witness_OverrunKeepsTheFirstBits : tightConfig.wellFormed = true ∧ (cardW1 ++ [true]).length > tightConfig.cap := by decide

theorem witness_ReadyFrameIsDecodedExactlyOnce : Inv readyCard ∧ readyCard.ready = true := ⟨inv_readyCard, by decide⟩

theorem witness_DecodeIsADestructiveReadAndReadyIsNot : Inv readyCard := inv_readyCard

/-- Room for both bits, and for neither. -/
theorem witness_SimultaneousPulsesDifferOnlyInTheirOrder :
    (Inv readyCard ∧ readyCard.snapshot = .ok cardW1) ∧ (Inv fullCard ∧ fullCard.snapshot = .ok cardW1) :=
  ⟨⟨inv_readyCard, snapshot_readyCard⟩, ⟨inv_fullCard, snapshot_fullCard⟩⟩

theorem witness_PulseAndDecodeInEitherOrder :
    (Inv readyCard ∧ readyCard.snapshot = .ok cardW1) ∧ (Inv fullCard ∧ fullCard.snapshot = .ok cardW1) :=
  ⟨⟨inv_readyCard, snapshot_readyCard⟩, ⟨inv_fullCard, snapshot_fullCard⟩⟩

/-- T_WAIT = 3, and the least window, T_WAIT = 1. -/
theorem witness_PulseAndTickInEitherOrder :
    Inv readyCard ∧ Inv (withFrame (Config.mk 26 1 1) [true] 1 false) :=
  ⟨inv_readyCard, inv_withFrame (by decide) (by decide) (by decide) (by decide)⟩

theorem witness_PulseBetweenReadyAndDecodeSpoilsTheCard :
    Inv readyCard ∧ readyCard.ready = true ∧ readyCard.snapshot = .ok cardW1 ∧ readyCard.count = 26 ∧ 26 < readyCard.cfg.cap :=
  ⟨inv_readyCard, by decide, snapshot_readyCard, by decide, by decide⟩

end Sys2Proof.Tests
end

/-! Proofs for `00_scope.md`: the parameters of R8 are fixed for a run, and the model's numbers fit the widths R8 gives them. -/

namespace Sys2Proof.Machine

-- Runs: a property that every event keeps.

/-- What every event keeps of the state, every trace keeps: a refused or faulting event leaves the state (R203). -/
theorem Run.performAll_keeps {P : State → Prop} (keeps : ∀ (i : Instr) (s t : State), P s → exec i s = .next t → P t)
    (tr : List Instr) : ∀ r : Run, P r.state → P (r.performAll tr).state := by
  induction tr with
  | nil => exact fun _ hr => hr
  | cons i tr ih =>
    intro r hr
    refine ih (r.perform i) ?_
    obtain ⟨hs, -⟩ | ⟨t, ht, hp⟩ := r.perform_cases i
    · exact hs ▸ hr
    · rw [hp]
      exact keeps i r.state t hr ht

theorem runFrom_keeps {P : State → Prop} (keeps : ∀ (i : Instr) (s t : State), P s → exec i s = .next t → P t)
    {s : State} (hs : P s) (tr : List Instr) : P (runFrom s tr).state :=
  Run.performAll_keeps keeps tr (Run.start s) hs

-- The parameters (R8).

/-- No event writes a parameter: none of the shared operations does. -/
theorem cfg_of_exec_next {i : Instr} {s t : State} (h : exec i s = .next t) : t.cfg = s.cfg := by
  obtain ⟨-, _, rfl⟩ | ⟨_, -, rfl⟩ | ⟨-, rfl⟩ | ⟨-, _, -, rfl⟩ | ⟨-, rfl⟩ := exec_next_cases h
  · exact State.drive_cfg ..
  · simp only [State.drive_cfg, State.capture_cfg]
  · simp only [State.drive_cfg, State.countDown_cfg]
  · simp only [State.drive_cfg, State.clearFrame_cfg]
  · simp only [State.drive_cfg, State.resetBlock_cfg]

/-- Fetching the event takes its code off the trace and leaves the parameters. -/
theorem cfg_of_step_next {s t : State} (h : step s = .next t) : t.cfg = s.cfg := by
  obtain ⟨ev, rest, -, he⟩ := step_next_cases h
  exact (cfg_of_exec_next he :)

theorem runFrom_cfg (s : State) (tr : List Instr) : (runFrom s tr).state.cfg = s.cfg :=
  runFrom_keeps (P := fun u => u.cfg = s.cfg) (fun _ _ _ hu he => (cfg_of_exec_next he).trans hu) rfl tr

/-- Settles O28: no shared operation writes the parameters, so no event does, and a run is events in order. -/
theorem parametersNeverChange : Obligations.ParametersNeverChange :=
  ⟨fun _ _ _ => cfg_of_exec_next, fun _ _ => cfg_of_step_next, runFrom_cfg⟩

-- The widths (R8, R20, R30).

/-- `CW` bits hold every number up to `CAP` (R8 row `CW`). -/
theorem Config.lt_two_pow_cw {c : Config} {n : Nat} (h : n ≤ c.cap) : n < 2 ^ c.cw :=
  (Nat.lt_succ_of_le h).trans_le (Nat.le_pow_clog Nat.one_lt_two (c.cap + 1))

/-- INV3 with R8's constraint on the window: WD fits its `WDW` bits. -/
theorem Inv.wd_lt {s : State} (h : Inv s) : s.wd < 2 ^ s.cfg.wdw := by
  obtain ⟨-, -, hw⟩ := Config.limits_of_wellFormed h.params
  exact h.wd_le.trans_lt hw

/-- INV4's bound: ACC_A folds at most 22 bits, so R27's `mod 2^26` discards none. -/
theorem Inv.accA_lt {s : State} (h : Inv s) : s.accA.toNat < 2 ^ 22 := by
  obtain ⟨bits, hbits⟩ := h.snapshot
  calc s.accA.toNat = fold (bits.take 22) := h.accA_eq bits hbits
    _ < 2 ^ (bits.take 22).length := fold_lt _
    _ ≤ 2 ^ 22 := Nat.pow_le_pow_right Nat.two_pos (List.length_take_le 22 bits)

/-- A consumer that samples `card` gets the record the step drove. -/
@[simp] theorem State.sampleCard_drive_some (i : Instr) (r : Option Bool) (c : CardRecord) (s t : State) :
    (State.drive i r (some c) s t).sampleCard = .next c := rfl

/-- The record a DECODE step drives, sampled, is that of the frame before the step (R141). -/
theorem sampleCard_of_decode {s t : State} (h : exec .decode s = .next t) :
    ∃ bits, s.snapshot = .ok bits ∧ t.sampleCard = .next (cardRecord bits s.count s.accA s.accB) := by
  cases hs : s.snapshot with
  | error k => rw [exec_decode_of_error hs] at h; cases h
  | ok bits =>
    rw [exec_decode_of_ok hs] at h
    cases h
    exact ⟨bits, rfl, State.sampleCard_drive_some ..⟩

/-- `bit_count` is COUNT before the DECODE (R142). -/
theorem bitCount_of_decode {s t : State} {c : CardRecord} (h : exec .decode s = .next t) (hc : t.sampleCard = .next c) :
    c.bitCount = s.count := by
  obtain ⟨bits, -, hb⟩ := sampleCard_of_decode h
  cases hb.symm.trans hc
  exact cardRecord_bitCount ..

/-- Settles O33: INV1 bounds COUNT, and with it `bit_count`, by CAP; INV3 bounds WD by T_WAIT; INV4 makes ACC_A a fold of at most 22
bits. -/
theorem countsFitTheirWidths : Obligations.CountsFitTheirWidths := by
  intro s hs
  have hcount : s.count < 2 ^ s.cfg.cw := Config.lt_two_pow_cw hs.count_le
  refine ⟨hcount, hs.wd_lt, hs.accA_lt, fun t c ht hc => ?_⟩
  rw [bitCount_of_decode ht hc]
  exact hcount

end Sys2Proof.Machine

/-! Proofs for `10_state.md`: the invariant of R29 and the elements of R20, the buffer's cells, the ports of a step, and what of the reset
configuration (R31) can be observed. -/

namespace Sys2Proof.Machine

-- The invariant (R29): the empty frame has it, and each shared operation keeps it.

/-- An empty frame meets what the invariant says of the frame; the watchdog's part stands apart. -/
theorem Inv.of_empty_frame {s : State} (hp : s.cfg.wellFormed = true) (hc : s.count = 0) (hb : s.buf = Memory.cleared)
    (ha : s.accA = 0) (ha' : s.accB = 0) (hf : s.fin = true ↔ s.wd = 0) (hw : s.wd ≤ s.cfg.tWait) : Inv s := by
  have hnil : ∀ bits, s.snapshot = .ok bits → bits = [] := fun bits h =>
    List.length_eq_zero_iff.mp ((State.length_of_snapshot h).trans hc)
  refine ⟨hp, hc ▸ Nat.zero_le _, hf, hw, hb ▸ Memory.cleared_wf, fun i => ?_, fun bits h => ?_, fun bits h => ?_⟩
  · simp [hb, hc]
  · simp [hnil bits h, ha]
  · simp [hnil bits h, ha']

theorem inv_powerOn {c : Config} (hc : c.wellFormed = true) (tr : List EventCode) : Inv (State.powerOn c tr) :=
  Inv.of_empty_frame hc rfl rfl rfl rfl (by simp) (Nat.zero_le _)

/-- The codes still to come are no part of what the invariant speaks of. -/
theorem Inv.with_pending {s : State} (h : Inv s) (rest : List EventCode) : Inv { s with pending := rest } :=
  h.of_same_frame rfl rfl rfl rfl rfl h.fin_iff h.wd_le

theorem Inv.drive {s : State} (h : Inv s) (i : Instr) (r : Option Bool) (c : Option CardRecord) (pre : State) :
    Inv (State.drive i r c pre s) :=
  h.of_same_frame rfl rfl rfl rfl rfl h.fin_iff h.wd_le

/-- A pulse opens the window: `T_WAIT >= 1` (R8) makes FIN = 0 and WD = T_WAIT agree with INV2. -/
theorem Inv.activity {s : State} (h : Inv s) : Inv s.activity := by
  obtain ⟨-, htw, -⟩ := Config.limits_of_wellFormed h.params
  refine h.of_same_frame rfl rfl rfl rfl rfl ?_ (Nat.le_refl _)
  simp only [State.activity_fin, State.activity_wd]
  simpa using Nat.ne_of_gt htw

theorem Inv.countDown {s : State} (h : Inv s) : Inv s.countDown := by
  cases hf : s.fin with
  | true => rwa [State.countDown_of_fin hf]
  | false =>
    rw [State.countDown_of_not_fin hf]
    exact h.of_same_frame rfl rfl rfl rfl rfl (expired_iff _) ((Nat.sub_le _ _).trans h.wd_le)

theorem Inv.clearFrame {s : State} (h : Inv s) : Inv s.clearFrame :=
  Inv.of_empty_frame h.params rfl rfl rfl rfl h.fin_iff h.wd_le

theorem Inv.resetBlock {s : State} (h : Inv s) : Inv s.resetBlock :=
  Inv.of_empty_frame h.params rfl rfl rfl rfl (by simp) (Nat.zero_le _)

/-- R27 below index 22: the fold of fewer than 22 bits is not cut by the accumulator's 26 bits. -/
theorem toNat_shiftIn_of_fold {a : Acc} {bits : List Bool} (ha : a.toNat = fold bits) (hl : bits.length < 22) (b : Bool) :
    (shiftIn a b).toNat = fold (bits ++ [b]) := by
  have hlt : fold (bits ++ [b]) < 2 ^ 26 := by
    calc fold (bits ++ [b]) < 2 ^ (bits ++ [b]).length := fold_lt _
      _ ≤ 2 ^ 26 := Nat.pow_le_pow_right Nat.two_pos (by rw [List.length_append, List.length_singleton]; omega)
  rw [toNat_shiftIn, ha, ← fold_append_single, Nat.mod_eq_of_lt hlt]

/-- R28: a shift after the cut to 26 bits is the cut of the longer fold. -/
theorem toNat_shiftIn_of_fold_mod {a : Acc} {bits : List Bool} (ha : a.toNat = fold bits % 2 ^ 26) (b : Bool) :
    (shiftIn a b).toNat = fold (bits ++ [b]) % 2 ^ 26 := by
  rw [toNat_shiftIn, ha, fold_append_single]
  omega

/-- INV4 over an append: up to 22 bits ACC_A takes the new bit, after that it is left. -/
theorem Inv.accA_appendBit {s : State} {bits : List Bool} (h : Inv s) (hs : s.snapshot = .ok bits) (b : Bool) :
    (s.appendBit b).accA.toNat = fold ((bits ++ [b]).take 22) := by
  have hl := State.length_of_snapshot hs
  have ha := h.accA_eq bits hs
  rw [State.appendBit_accA]
  by_cases hc : s.count < 22
  · rw [List.take_of_length_le (by omega)] at ha
    rw [if_pos hc, List.take_of_length_le (by rw [List.length_append, List.length_singleton]; omega)]
    exact toNat_shiftIn_of_fold ha (hl ▸ hc) b
  · rw [if_neg hc, List.take_append_of_le_length (by omega), ha]

/-- INV5 over an append: ACC_B takes the bits from index 22 on. -/
theorem Inv.accB_appendBit {s : State} {bits : List Bool} (h : Inv s) (hs : s.snapshot = .ok bits) (b : Bool) :
    (s.appendBit b).accB.toNat = fold ((bits ++ [b]).drop 22) % 2 ^ 26 := by
  have hl := State.length_of_snapshot hs
  have ha := h.accB_eq bits hs
  rw [State.appendBit_accB]
  by_cases hc : s.count < 22
  · rw [List.drop_eq_nil_of_le (by omega)] at ha
    rw [if_pos hc, List.drop_eq_nil_of_le (by rw [List.length_append, List.length_singleton]; omega), ha]
  · rw [if_neg hc, List.drop_append_of_le_length (by omega)]
    exact toNat_shiftIn_of_fold_mod ha b

/-- An accepted bit keeps the invariant: it fills the cell at COUNT, and the accumulators follow the longer frame. -/
theorem Inv.appendBit {s : State} (h : Inv s) (hlt : s.count < s.cfg.cap) (b : Bool) : Inv (s.appendBit b) := by
  obtain ⟨bits, hs⟩ := h.snapshot
  have hs' := State.snapshot_appendBit hs b
  refine ⟨h.params, hlt, h.fin_iff, h.wd_le, Memory.write_wf h.bufWf _ _, fun i => ?_, fun bits' h' => ?_, fun bits' h' => ?_⟩
  · rw [State.appendBit_buf, State.appendBit_count]
    by_cases hi : i = s.count
    · simp [hi]
    · rw [Memory.read_write_of_ne hi, h.written, decide_eq_decide]
      omega
  · cases hs'.symm.trans h'
    exact h.accA_appendBit hs b
  · cases hs'.symm.trans h'
    exact h.accB_appendBit hs b

theorem Inv.capture {s : State} (h : Inv s) (b : Bool) : Inv (s.capture b) := by
  by_cases hc : s.count < s.cfg.cap
  · rw [State.capture_of_lt b hc]
    exact (h.appendBit hc b).activity
  · rw [State.capture_of_ge b (Nat.le_of_not_lt hc)]
    exact h.activity

/-- Every event keeps the invariant: it drives the ports over a shared operation, which keeps it. -/
theorem Inv.of_exec_next {i : Instr} {s t : State} (h : Inv s) (he : exec i s = .next t) : Inv t := by
  obtain ⟨-, _, rfl⟩ | ⟨b, -, rfl⟩ | ⟨-, rfl⟩ | ⟨-, _, -, rfl⟩ | ⟨-, rfl⟩ := exec_next_cases he
  · exact h.drive ..
  · exact (h.capture b).drive ..
  · exact h.countDown.drive ..
  · exact h.clearFrame.drive ..
  · exact h.resetBlock.drive ..

/-- Settles O31: a step is an event performed after its code is taken off the trace, and both keep the invariant. -/
theorem everyStepKeepsInv1ToInv5 : Obligations.EveryStepKeepsInv1ToInv5 := by
  intro s t hs ht
  obtain ⟨_, rest, -, he⟩ := step_next_cases ht
  exact (hs.with_pending rest).of_exec_next he

/-- Settles O30: the reset configuration is an empty frame with an idle watchdog, whatever the parameters. -/
theorem invariantHoldsAtPowerOn : Obligations.InvariantHoldsAtPowerOn :=
  ⟨fun _ tr hc => inv_powerOn hc tr, inv_powerOn (by decide) [], rfl⟩

-- The frame buffer's cells (R26).

theorem Memory.readBits_succ_of_none {m : Memory} {i : Nat} (h : Memory.read i m = none) (len : Nat) :
    Memory.readBits m i (len + 1) = .error i := by
  simp [Memory.readBits, h]

/-- A cell that holds a value is no failure of a run of cells: the run fails where its rest does. -/
theorem Memory.readBits_succ_error_iff {m : Memory} {i : Nat} {b : Bool} (h : Memory.read i m = some b) (len j : Nat) :
    Memory.readBits m i (len + 1) = .error j ↔ Memory.readBits m (i + 1) len = .error j := by
  rw [Memory.readBits, h]
  cases Memory.readBits m (i + 1) len <;> simp

/-- A run of cells fails exactly at its first cell that holds no value. -/
theorem Memory.readBits_error_iff {m : Memory} {len j : Nat} : ∀ {i : Nat},
    Memory.readBits m i len = .error j ↔
      (i ≤ j ∧ j < i + len ∧ Memory.read j m = none ∧ ∀ k, i ≤ k → k < j → Memory.read k m ≠ none) := by
  induction len with
  | zero =>
    intro i
    refine ⟨nofun, fun ⟨hij, hji, _⟩ => ?_⟩
    omega
  | succ n ih =>
    intro i
    cases hr : Memory.read i m with
    | none =>
      rw [Memory.readBits_succ_of_none hr, Except.error.injEq]
      constructor
      · rintro rfl
        exact ⟨Nat.le_refl _, by omega, hr, fun k hik hki => absurd hik (Nat.not_le_of_lt hki)⟩
      · rintro ⟨hij, -, -, hbefore⟩
        exact (Nat.eq_or_lt_of_le hij).resolve_right fun hlt => hbefore i (Nat.le_refl i) hlt hr
    | some b =>
      rw [Memory.readBits_succ_error_iff hr, ih]
      constructor
      · rintro ⟨hij, hji, hj, hbefore⟩
        refine ⟨by omega, by omega, hj, fun k hik hkj => ?_⟩
        rcases Nat.eq_or_lt_of_le hik with rfl | hlt
        · simp [hr]
        · exact hbefore k hlt hkj
      · rintro ⟨hij, hji, hj, hbefore⟩
        have hne : i ≠ j := by rintro rfl; cases hr.symm.trans hj
        exact ⟨by omega, by omega, hj, fun k hik hkj => hbefore k (by omega) hkj⟩

theorem State.snapshot_error_iff {s : State} {i : Nat} :
    s.snapshot = .error i ↔ (i < s.count ∧ Memory.read i s.buf = none ∧ ∀ k, k < i → Memory.read k s.buf ≠ none) := by
  simp [State.snapshot, Memory.readBits_error_iff]

/-- DECODE stops where its snapshot fails, and only there (U1). -/
theorem exec_decode_fault_iff {s : State} {f : Fault} :
    exec .decode s = .fault f ↔ ∃ i, s.snapshot = .error i ∧ f = .unwrittenCell i := by
  cases hs : s.snapshot with
  | error i => simp [exec_decode_of_error hs, eq_comm]
  | ok bits => simp [exec_decode_of_ok hs]

/-- No event but DECODE can stop with a fault (R200). -/
theorem eq_decode_of_exec_fault {i : Instr} {s : State} {f : Fault} (h : exec i s = .fault f) : i = .decode := by
  cases i with
  | decode => rfl
  | nop | pulse0 | pulse1 | tick | ready | reserved | reset => cases h

/-- Under the invariant every frame cell holds a value, so no event stops with a fault (R26). -/
theorem Inv.exec_ne_fault {s : State} (h : Inv s) (i : Instr) (f : Fault) : exec i s ≠ .fault f := by
  intro hf
  obtain rfl := eq_decode_of_exec_fault hf
  obtain ⟨k, hk, -⟩ := exec_decode_fault_iff.mp hf
  obtain ⟨bits, hs⟩ := h.snapshot
  cases hk.symm.trans hs

/-- Settles O18: DECODE's fault is its snapshot's, which names the first frame cell without a value. -/
theorem decodeFaultsExactlyOnAnUnwrittenCell : Obligations.DecodeFaultsExactlyOnAnUnwrittenCell := by
  refine ⟨fun s i => ?_, fun s f hs => hs.exec_ne_fault .decode f⟩
  rw [← State.snapshot_error_iff]
  simp [exec_decode_fault_iff]

theorem capture_buf_wf {s : State} (h : Memory.wf s.buf) (b : Bool) : Memory.wf (s.capture b).buf := by
  by_cases hc : s.count < s.cfg.cap
  · rw [State.capture_of_lt b hc]
    exact Memory.write_wf h s.count b
  · rw [State.capture_of_ge b (Nat.le_of_not_lt hc)]
    exact h

/-- Settles O29: an event leaves BUF, writes one cell in order, or clears it. -/
theorem eventsKeepTheBufferCanonical : Obligations.EventsKeepTheBufferCanonical := by
  intro i s t hs he
  obtain ⟨-, _, rfl⟩ | ⟨b, -, rfl⟩ | ⟨-, rfl⟩ | ⟨-, _, -, rfl⟩ | ⟨-, rfl⟩ := exec_next_cases he
  · exact hs
  · exact capture_buf_wf hs b
  · rw [State.drive_buf, State.countDown_buf]
    exact hs
  · exact Memory.cleared_wf
  · exact Memory.cleared_wf

-- The elements of R20: what an event other than a pulse can have done.

theorem isPulse_eq_false_iff {i : Instr} : isPulse i = false ↔ i ≠ .pulse0 ∧ i ≠ .pulse1 := by
  cases i <;> decide

/-- An event other than a pulse leaves the frame, or clears it and is DECODE or RESET (R122). -/
theorem frame_of_exec_next {i : Instr} {s t : State} (hi : isPulse i = false) (h : exec i s = .next t) :
    Dropped s t ∨
    ((i = .decode ∨ i = .reset) ∧ t.count = 0 ∧ t.buf = Memory.cleared ∧ t.accA = 0 ∧ t.accB = 0) := by
  obtain ⟨-, _, rfl⟩ | ⟨b, rfl, -⟩ | ⟨-, rfl⟩ | ⟨hd, _, -, rfl⟩ | ⟨hr, rfl⟩ := exec_next_cases h
  · exact .inl ⟨rfl, rfl, rfl, rfl⟩
  · cases b <;> cases hi
  · exact .inl ⟨by simp, by simp, by simp, by simp⟩
  · exact .inr ⟨.inl hd, rfl, rfl, rfl, rfl⟩
  · exact .inr ⟨.inr hr, rfl, rfl, rfl, rfl⟩

/-- Of the other events only TICK and RESET write the watchdog (R20, rows WD and FIN). -/
theorem watchdog_of_exec_next {i : Instr} {s t : State} (hi : isPulse i = false) (ht : i ≠ .tick) (hr : i ≠ .reset)
    (h : exec i s = .next t) : t.wd = s.wd ∧ t.fin = s.fin := by
  obtain ⟨-, _, rfl⟩ | ⟨b, rfl, -⟩ | ⟨htick, -⟩ | ⟨-, _, -, rfl⟩ | ⟨hreset, -⟩ := exec_next_cases h
  · exact ⟨rfl, rfl⟩
  · cases b <;> cases hi
  · exact absurd htick ht
  · exact ⟨rfl, rfl⟩
  · exact absurd hreset hr

/-- Settles O26: outside the pulses the frame is left or cleared as a whole, and the watchdog is left but for TICK and RESET. -/
theorem onlyListedEventsWriteEachElement : Obligations.OnlyListedEventsWriteEachElement := by
  intro i s t he
  have keeps (h0 : i ≠ .pulse0) (h1 : i ≠ .pulse1) (hd : i ≠ .decode) (hr : i ≠ .reset) : Dropped s t :=
    (frame_of_exec_next (isPulse_eq_false_iff.mpr ⟨h0, h1⟩) he).resolve_right fun ⟨hi, _⟩ => hi.elim hd hr
  refine ⟨fun h0 h1 hd hr => ?_, fun h0 h1 => ?_, fun h0 h1 k hk => ?_, fun h0 h1 hd hr => ?_⟩
  · obtain ⟨hc, -, ha, hb⟩ := keeps h0 h1 hd hr
    exact ⟨hc, ha, hb⟩
  · exact fun ht hr => watchdog_of_exec_next (isPulse_eq_false_iff.mpr ⟨h0, h1⟩) ht hr he
  · obtain ⟨-, hb, -⟩ | ⟨-, -, hb, -⟩ := frame_of_exec_next (isPulse_eq_false_iff.mpr ⟨h0, h1⟩) he
    · rw [hb]
    · exact absurd (by rw [hb]; rfl) hk
  · obtain ⟨-, hb, -⟩ := keeps h0 h1 hd hr
    exact hb

/-- Settles O14: the count-down from 0 is cut at 0, and 0 is an elapsed window. -/
theorem tickAtZeroNeverWraps : Obligations.TickAtZeroNeverWraps := by
  intro s hf hw
  refine ⟨_, exec_tick s, ?_, ?_, ?_⟩
  · simp [State.countDown_of_not_fin hf, hw]
  · simp [State.countDown_of_not_fin hf, hw]
  · simp [Shows]

-- The ports (R70).

/-- What the ports show of an event: the level `ready` before it, and a record in a DECODE step only. -/
theorem out_of_exec_next {i : Instr} {s t : State} (h : exec i s = .next t) :
    ∃ r c, t.out = some ⟨i, s.ready, r, c⟩ ∧ (i ≠ .decode → c = none) := by
  obtain ⟨-, r, rfl⟩ | ⟨b, -, rfl⟩ | ⟨-, rfl⟩ | ⟨hd, _, -, rfl⟩ | ⟨-, rfl⟩ := exec_next_cases h
  · exact ⟨r, none, rfl, fun _ => rfl⟩
  · exact ⟨none, none, rfl, fun _ => rfl⟩
  · exact ⟨none, none, rfl, fun _ => rfl⟩
  · exact ⟨none, _, rfl, fun hi => absurd hd hi⟩
  · exact ⟨none, none, rfl, fun _ => rfl⟩

/-- Settles O8: every event drives the ports with the level of the state before it, and READY's result is that level. -/
theorem readyLevelIsOfTheStateBefore : Obligations.ReadyLevelIsOfTheStateBefore := by
  refine ⟨fun s => ?_, fun i s t he => ?_, fun s t he => ?_⟩
  · simp [State.ready_eq]
  · obtain ⟨r, c, ho, -⟩ := out_of_exec_next he
    rw [ho]
    rfl
  · cases he
    rfl

/-- `card` sampled where the step drove no record (D24, U2). -/
theorem State.sampleCard_of_no_card {s : State} {p : Ports} (ho : s.out = some p) (hc : p.card = none) :
    s.sampleCard = .refused .cardNotDriven := by
  simp [State.sampleCard, ho, hc]

/-- Settles O25: a DECODE step drives the record of COUNT bits, and no other step drives one. -/
theorem cardIsSampledOnlyInADecodeStep : Obligations.CardIsSampledOnlyInADecodeStep := by
  intro i s t he
  constructor
  · rintro rfl
    obtain ⟨bits, -, hc⟩ := sampleCard_of_decode he
    exact ⟨_, hc, cardRecord_bitCount ..⟩
  · intro hi
    obtain ⟨r, c, ho, hc⟩ := out_of_exec_next he
    exact State.sampleCard_of_no_card ho (hc hi)

-- Runs from power-on (R29).

/-- `Run.performAll_keeps` over one trace: only its own events have to keep the property. -/
theorem Run.performAll_keeps_of_mem {P : State → Prop} {tr : List Instr}
    (keeps : ∀ i ∈ tr, ∀ s t : State, P s → exec i s = .next t → P t) :
    ∀ r : Run, P r.state → P (r.performAll tr).state := by
  induction tr with
  | nil => exact fun _ hr => hr
  | cons i tr ih =>
    intro r hr
    refine ih (fun j hj => keeps j (List.mem_cons_of_mem _ hj)) (r.perform i) ?_
    obtain ⟨hs, -⟩ | ⟨t, ht, hp⟩ := r.perform_cases i
    · exact hs ▸ hr
    · rw [hp]
      exact keeps i List.mem_cons_self r.state t hr ht

theorem inv_runFrom {s : State} (h : Inv s) (tr : List Instr) : Inv (runFrom s tr).state :=
  runFrom_keeps (fun _ _ _ hs he => hs.of_exec_next he) h tr

/-- An event performed from a state of the invariant records no fault. -/
theorem Run.perform_fault_of_inv {r : Run} (h : Inv r.state) (hf : r.fault = none) (i : Instr) :
    (r.perform i).fault = none := by
  cases he : exec i r.state with
  | next t => rw [Run.perform_of_next hf he]; exact hf
  | refused why => rw [Run.perform_of_refused hf he]; exact hf
  | fault f => exact absurd he (h.exec_ne_fault i f)

theorem Run.perform_inv {r : Run} (h : Inv r.state) (i : Instr) : Inv (r.perform i).state :=
  Run.performAll_keeps (fun _ _ _ hs he => hs.of_exec_next he) [i] r h

/-- No trace from a state of the invariant records a fault. -/
theorem Run.performAll_fault_of_inv (tr : List Instr) : ∀ {r : Run}, Inv r.state → r.fault = none →
    (r.performAll tr).fault = none := by
  induction tr with
  | nil => exact fun _ hf => hf
  | cons i tr ih => exact fun h hf => ih (Run.perform_inv h i) (Run.perform_fault_of_inv h hf i)

/-- INV6: COUNT and both accumulators are 0. -/
def EmptyFrame (s : State) : Prop := s.count = 0 ∧ s.accA = 0 ∧ s.accB = 0

/-- Without a pulse an empty frame stays empty: the event leaves the frame or clears it. -/
theorem EmptyFrame.of_exec_next {i : Instr} {s t : State} (h : EmptyFrame s) (hi : isPulse i = false)
    (he : exec i s = .next t) : EmptyFrame t := by
  obtain ⟨hc, ha, hb⟩ := h
  obtain ⟨hc', -, ha', hb'⟩ | ⟨-, hc', -, ha', hb'⟩ := frame_of_exec_next hi he
  · exact ⟨hc'.trans hc, ha'.trans ha, hb'.trans hb⟩
  · exact ⟨hc', ha', hb'⟩

/-- A DECODE performed in a run under the invariant empties the frame (R151). -/
theorem Run.emptyFrame_perform_decode {r : Run} (h : Inv r.state) (hf : r.fault = none) :
    EmptyFrame (r.perform .decode).state := by
  obtain ⟨bits, hs⟩ := h.snapshot
  rw [Run.perform_of_next hf (exec_decode_of_ok hs)]
  exact ⟨rfl, rfl, rfl⟩

/-- Settles O32: the invariant holds at power-on and every event keeps it; under it the DECODE completes and empties the frame, which
the events after it leave empty. -/
theorem reachableStatesMeetTheInvariants : Obligations.ReachableStatesMeetTheInvariants := by
  intro c tr hc
  have hinv := inv_powerOn hc []
  refine ⟨inv_runFrom hinv tr, ?_⟩
  rintro before after rfl hafter
  have hfault : (runFrom (State.powerOn c []) before).fault = none := Run.performAll_fault_of_inv before hinv rfl
  have hempty := Run.emptyFrame_perform_decode (inv_runFrom hinv before) hfault
  rw [runFrom, Run.performAll_append, Run.performAll_cons]
  exact Run.performAll_keeps_of_mem (fun i hi _ _ hs he => hs.of_exec_next (hafter i hi) he) _ hempty

-- What can be observed of a state whose frame is empty (R31).

/-- Two words agree on the bits below `n`. -/
def SameLowBits (n : Nat) (a b : Acc) : Prop := ∀ k, k < n → a.getLsbD k = b.getLsbD k

/-- A shift brings the new bit in below the others (R27, R28). -/
theorem getLsbD_shiftIn_zero (a : Acc) (b : Bool) : (shiftIn a b).getLsbD 0 = b := by
  cases b <;> simp [shiftIn]

theorem getLsbD_shiftIn_succ (a : Acc) (b : Bool) (k : Nat) :
    (shiftIn a b).getLsbD (k + 1) = (decide (k + 1 < 26) && a.getLsbD k) := by
  cases b <;> simp [shiftIn, BitVec.getLsbD_or, BitVec.getLsbD_shiftLeft, -BitVec.getLsbD_eq_getElem]

/-- Shifting the same bit into both makes one bit more agree: what stood in them before moves up. -/
theorem SameLowBits.shiftIn {n : Nat} {a a' : Acc} (h : SameLowBits n a a') (b : Bool) :
    SameLowBits (n + 1) (shiftIn a b) (shiftIn a' b) := by
  intro k hk
  cases k with
  | zero => rw [getLsbD_shiftIn_zero, getLsbD_shiftIn_zero]
  | succ k => rw [getLsbD_shiftIn_succ, getLsbD_shiftIn_succ, h k (by omega)]

theorem SameLowBits.extractLsb' {n : Nat} {a a' : Acc} (h : SameLowBits n a a') {lo len : Nat} (hn : lo + len ≤ n) :
    a.extractLsb' lo len = a'.extractLsb' lo len := by
  apply BitVec.eq_of_getLsbD_eq
  intro k hk
  rw [BitVec.getLsbD_extractLsb', BitVec.getLsbD_extractLsb', h (lo + k) (by omega)]

/-- The record of 26 bits reads the low 22 bits of ACC_A and the low 4 of ACC_B (R145, R146), that of any other count none (R154). -/
theorem cardRecord_congr {bits : List Bool} {n : Nat} {a a' b b' : Acc} (ha : n = 26 → SameLowBits 22 a a')
    (hb : n = 26 → SameLowBits 4 b b') : cardRecord bits n a b = cardRecord bits n a' b' := by
  by_cases hn : n = 26
  · have hpre : preamble a = preamble a' := by
      rw [preamble, preamble, (ha hn).extractLsb' (by decide), (ha hn).extractLsb' (by decide)]
    have hcd : cardData a b = cardData a' b' := by
      rw [cardData, cardData, (ha hn).extractLsb' (by decide), (hb hn).extractLsb' (by decide)]
    rw [hn, cardRecord_of_eq, cardRecord_of_eq, hpre, hcd]
  · rw [cardRecord_of_ne hn, cardRecord_of_ne hn]

/-- Two states that no event can tell apart: COUNT, the parameters and the frame's bits are the same, the accumulators agree on the bits
shifted into them since the frame was empty, and the watchdog agrees once the frame holds a bit (before that `ready` is 0 whatever it
holds). -/
structure LooksAlike (s u : State) : Prop where
  cfg_eq : u.cfg = s.cfg
  count_eq : u.count = s.count
  cells : ∀ k, k < s.count → Memory.read k u.buf = Memory.read k s.buf
  accA_low : SameLowBits (min s.count 22) s.accA u.accA
  accB_low : SameLowBits (s.count - 22) s.accB u.accB
  window : s.count ≠ 0 → u.wd = s.wd ∧ u.fin = s.fin

/-- With an empty frame nothing but COUNT and the parameters has to agree. -/
theorem looksAlike_of_count_zero {s u : State} (hs : s.count = 0) (hu : u.count = 0) (hc : u.cfg = s.cfg) : LooksAlike s u where
  cfg_eq := hc
  count_eq := hu.trans hs.symm
  cells k hk := absurd (hs ▸ hk) (Nat.not_lt_zero k)
  accA_low k hk := by omega
  accB_low k hk := by omega
  window h := absurd hs h

theorem LooksAlike.ready_eq {s u : State} (h : LooksAlike s u) : u.ready = s.ready := by
  by_cases hc : s.count = 0
  · simp [State.ready, h.count_eq, hc]
  · exact State.ready_congr (h.window hc).2 h.count_eq

theorem LooksAlike.snapshot_eq {s u : State} (h : LooksAlike s u) : u.snapshot = s.snapshot := by
  rw [State.snapshot, State.snapshot, h.count_eq]
  exact Memory.readBits_congr fun k _ hk => h.cells k (by omega)

theorem LooksAlike.cardRecord_eq {s u : State} (h : LooksAlike s u) (bits : List Bool) :
    cardRecord bits u.count u.accA u.accB = cardRecord bits s.count s.accA s.accB := by
  have ha := h.accA_low
  have hb := h.accB_low
  rw [h.count_eq]
  refine (cardRecord_congr (fun hn => ?_) (fun hn => ?_)).symm
  · rwa [hn] at ha
  · rwa [hn] at hb

theorem LooksAlike.drive {s u : State} (h : LooksAlike s u) (i : Instr) (r r' : Option Bool) (c c' : Option CardRecord)
    (pre pre' : State) : LooksAlike (State.drive i r c pre s) (State.drive i r' c' pre' u) :=
  ⟨h.cfg_eq, h.count_eq, h.cells, h.accA_low, h.accB_low, h.window⟩

/-- Line activity loads the watchdog from the parameters, which agree. -/
theorem LooksAlike.activity {s u : State} (h : LooksAlike s u) : LooksAlike s.activity u.activity :=
  ⟨h.cfg_eq, h.count_eq, h.cells, h.accA_low, h.accB_low, fun _ => ⟨congrArg Config.tWait h.cfg_eq, rfl⟩⟩

theorem LooksAlike.accA_appendBit {s u : State} (h : LooksAlike s u) (b : Bool) :
    SameLowBits (min (s.count + 1) 22) (s.appendBit b).accA (u.appendBit b).accA := by
  have ha := h.accA_low
  rw [State.appendBit_accA, State.appendBit_accA, h.count_eq]
  by_cases hc : s.count < 22
  · rw [if_pos hc, if_pos hc, show min (s.count + 1) 22 = min s.count 22 + 1 by omega]
    exact ha.shiftIn b
  · rw [if_neg hc, if_neg hc, show min (s.count + 1) 22 = min s.count 22 by omega]
    exact ha

theorem LooksAlike.accB_appendBit {s u : State} (h : LooksAlike s u) (b : Bool) :
    SameLowBits (s.count + 1 - 22) (s.appendBit b).accB (u.appendBit b).accB := by
  have hb := h.accB_low
  rw [State.appendBit_accB, State.appendBit_accB, h.count_eq]
  by_cases hc : s.count < 22
  · rw [if_pos hc, if_pos hc, show s.count + 1 - 22 = s.count - 22 by omega]
    exact hb
  · rw [if_neg hc, if_neg hc, show s.count + 1 - 22 = s.count - 22 + 1 by omega]
    exact hb.shiftIn b

theorem LooksAlike.activity_appendBit {s u : State} (h : LooksAlike s u) (b : Bool) :
    LooksAlike (s.appendBit b).activity (u.appendBit b).activity where
  cfg_eq := h.cfg_eq
  count_eq := congrArg (· + 1) h.count_eq
  cells k hk := by
    have hk' : k < s.count + 1 := hk
    simp only [State.activity_buf, State.appendBit_buf, h.count_eq, Memory.read_write]
    split
    · rfl
    · exact h.cells k (by omega)
  accA_low := h.accA_appendBit b
  accB_low := h.accB_appendBit b
  window _ := ⟨congrArg Config.tWait h.cfg_eq, rfl⟩

theorem LooksAlike.capture {s u : State} (h : LooksAlike s u) (b : Bool) : LooksAlike (s.capture b) (u.capture b) := by
  by_cases hc : s.count < s.cfg.cap
  · rw [State.capture_of_lt b hc, State.capture_of_lt b (by rwa [h.count_eq, h.cfg_eq])]
    exact h.activity_appendBit b
  · rw [State.capture_of_ge b (Nat.le_of_not_lt hc), State.capture_of_ge b (by rw [h.count_eq, h.cfg_eq]; omega)]
    exact h.activity

theorem LooksAlike.countDown {s u : State} (h : LooksAlike s u) : LooksAlike s.countDown u.countDown where
  cfg_eq := by simpa using h.cfg_eq
  count_eq := by simpa using h.count_eq
  cells := by simpa using h.cells
  accA_low := by simpa using h.accA_low
  accB_low := by simpa using h.accB_low
  window hc := by
    obtain ⟨hw, hf⟩ := h.window (by simpa using hc)
    cases hs : s.fin with
    | true => rw [State.countDown_of_fin hs, State.countDown_of_fin (hf.trans hs)]; exact ⟨hw, hf⟩
    | false => rw [State.countDown_of_not_fin hs, State.countDown_of_not_fin (hf.trans hs), hw]; exact ⟨rfl, rfl⟩

/-- Two clears leave an empty frame, whatever they cleared (R31, R151). -/
theorem LooksAlike.clearFrame {s u : State} (h : LooksAlike s u) : LooksAlike s.clearFrame u.clearFrame :=
  looksAlike_of_count_zero (State.clearFrame_count s) (State.clearFrame_count u) h.cfg_eq

theorem LooksAlike.resetBlock {s u : State} (h : LooksAlike s u) : LooksAlike s.resetBlock u.resetBlock :=
  looksAlike_of_count_zero (State.resetBlock_count s) (State.resetBlock_count u) h.cfg_eq

/-- An event has the same outcome in both states: next states that look alike and show the same, or the same stop. -/
def SameOutcome (o o' : Host.Outcome State Fault Refusal) : Prop :=
  (∃ t v, o = .next t ∧ o' = .next v ∧ LooksAlike t v ∧ v.out = t.out) ∨
  (∃ why, o = .refused why ∧ o' = .refused why) ∨ (∃ f, o = .fault f ∧ o' = .fault f)

/-- The ports of two states that look alike are driven alike, where the event's result and record are the same. -/
theorem LooksAlike.sameOutcome_drive {s u t v : State} (h : LooksAlike s u) (ht : LooksAlike t v) (i : Instr)
    {r r' : Option Bool} (hr : r' = r) {c c' : Option CardRecord} (hc : c' = c) :
    SameOutcome (.next (State.drive i r c s t)) (.next (State.drive i r' c' u v)) :=
  .inl ⟨_, _, rfl, rfl, ht.drive .., by rw [State.drive_out, State.drive_out, h.ready_eq, hr, hc]⟩

theorem LooksAlike.sameOutcome_decode {s u : State} (h : LooksAlike s u) :
    SameOutcome (exec .decode s) (exec .decode u) := by
  cases hs : s.snapshot with
  | error i =>
    rw [exec_decode_of_error hs, exec_decode_of_error (h.snapshot_eq.trans hs)]
    exact .inr (.inr ⟨_, rfl, rfl⟩)
  | ok bits =>
    rw [exec_decode_of_ok hs, exec_decode_of_ok (h.snapshot_eq.trans hs)]
    exact h.sameOutcome_drive h.clearFrame .decode rfl (congrArg some (h.cardRecord_eq bits))

theorem LooksAlike.sameOutcome_exec {s u : State} (h : LooksAlike s u) (i : Instr) : SameOutcome (exec i s) (exec i u) := by
  cases i with
  | nop => exact h.sameOutcome_drive h .nop rfl rfl
  | pulse0 => exact h.sameOutcome_drive (h.capture false) .pulse0 rfl rfl
  | pulse1 => exact h.sameOutcome_drive (h.capture true) .pulse1 rfl rfl
  | tick => exact h.sameOutcome_drive h.countDown .tick rfl rfl
  | ready => exact h.sameOutcome_drive h .ready (congrArg some h.ready_eq) rfl
  | decode => exact h.sameOutcome_decode
  | reserved => exact .inr (.inl ⟨_, rfl, rfl⟩)
  | reset => exact h.sameOutcome_drive h.resetBlock .reset rfl rfl

/-- Two runs that have shown and recorded the same, in states that look alike. -/
structure Run.LooksAlike (r q : Run) : Prop where
  state : Machine.LooksAlike r.state q.state
  observation_eq : r.observation = q.observation
  refusal_eq : r.refusal = q.refusal
  fault_eq : r.fault = q.fault

/-- A run that has met a fault performs nothing more (log entry 8). -/
theorem Run.perform_of_some_fault {r : Run} {f : Fault} (hf : r.fault = some f) (i : Instr) : r.perform i = r := by
  simp [Run.perform, hf]

theorem Run.LooksAlike.perform {r q : Run} (h : r.LooksAlike q) (i : Instr) : (r.perform i).LooksAlike (q.perform i) := by
  obtain ⟨hs, ho, hr, hf⟩ := h
  cases hrf : r.fault with
  | some f =>
    rw [Run.perform_of_some_fault hrf, Run.perform_of_some_fault (hf.symm.trans hrf)]
    exact ⟨hs, ho, hr, hf⟩
  | none =>
    have hqf : q.fault = none := hf.symm.trans hrf
    obtain ⟨t, v, ht, hv, htv, hout⟩ | ⟨why, ht, hv⟩ | ⟨f, ht, hv⟩ := hs.sameOutcome_exec i
    · rw [Run.perform_of_next hrf ht, Run.perform_of_next hqf hv]
      exact ⟨htv, by rw [ho, hout], hr, hf⟩
    · rw [Run.perform_of_refused hrf ht, Run.perform_of_refused hqf hv]
      exact ⟨hs, ho, congrArg (Option.or · (some why)) hr, hf⟩
    · rw [Run.perform_of_fault hrf ht, Run.perform_of_fault hqf hv]
      exact ⟨hs, ho, hr, rfl⟩

theorem Run.LooksAlike.performAll (tr : List Instr) : ∀ {r q : Run}, r.LooksAlike q →
    (r.performAll tr).LooksAlike (q.performAll tr) := by
  induction tr with
  | nil => exact fun h => h
  | cons i tr ih => exact fun h => ih (h.perform i)

/-- Settles O39: states with COUNT = 0 and the same parameters look alike, every event keeps that, and what looks alike shows the same. -/
theorem onlyCountIsObservableAtReset : Obligations.OnlyCountIsObservableAtReset := by
  intro s u tr hs hu hc
  have hstart : (Run.start s).LooksAlike (Run.start u) :=
    ⟨looksAlike_of_count_zero hs hu hc.symm, rfl, rfl, rfl⟩
  obtain ⟨-, ho, hr, hf⟩ := hstart.performAll tr
  exact ⟨ho, hr, hf⟩

end Sys2Proof.Machine

/-! Proofs for `20_memory.md`: the steps of the machine against the run of its events, the reach of the frame buffer, the traces the
agents' events make, the destructive read, and two pulses issued at once. -/

namespace Sys2Proof.Machine

-- The machine's steps and the run of their events (R59, R70).

/-- The codes still to come are no part of what an event reads or writes. -/
theorem State.capture_with_pending (b : Bool) (s : State) (rest : List EventCode) :
    State.capture b { s with pending := rest } = { s.capture b with pending := rest } := by
  simp only [State.capture]
  split <;> rfl

theorem State.countDown_with_pending (s : State) (rest : List EventCode) :
    State.countDown { s with pending := rest } = { s.countDown with pending := rest } := by
  simp only [State.countDown]
  split <;> rfl

/-- An event performed with other codes to come reaches the same state but for them. -/
theorem exec_with_pending {i : Instr} {s t : State} (h : exec i s = .next t) (rest : List EventCode) :
    exec i { s with pending := rest } = .next { t with pending := rest } := by
  cases i with
  | nop | ready | reset => cases h; rfl
  | pulse0 | pulse1 =>
    cases h
    simp only [exec_pulse0, exec_pulse1, State.capture_with_pending]
    rfl
  | tick =>
    cases h
    rw [exec_tick, State.countDown_with_pending]
    rfl
  | decode =>
    cases hs : s.snapshot with
    | error k => rw [exec_decode_of_error hs] at h; cases h
    | ok bits =>
      rw [exec_decode_of_ok hs] at h
      cases h
      exact exec_decode_of_ok (s := { s with pending := rest }) hs
  | reserved => cases h

/-- No event takes a code off the trace or puts one on it: fetching does (R70). -/
theorem pending_of_exec_next {i : Instr} {s t : State} (h : exec i s = .next t) : t.pending = s.pending := by
  obtain ⟨-, _, rfl⟩ | ⟨_, -, rfl⟩ | ⟨-, rfl⟩ | ⟨-, _, -, rfl⟩ | ⟨-, rfl⟩ := exec_next_cases h
  · exact State.drive_pending ..
  · simp only [State.drive_pending, State.capture_pending]
  · simp only [State.drive_pending, State.countDown_pending]
  · simp only [State.drive_pending, State.clearFrame_pending]
  · simp only [State.drive_pending, State.resetBlock_pending]

/-- A run with nothing recorded after an event had nothing recorded before it, and the event answered a next state. -/
theorem Run.clean_perform_cases {r : Run} {i : Instr} (h : (r.perform i).clean) :
    r.clean ∧ ∃ t, exec i r.state = .next t := by
  obtain ⟨hr, hf⟩ := h
  cases hrf : r.fault with
  | some f => rw [Run.perform_of_some_fault hrf, hrf] at hf; cases hf
  | none =>
    cases he : exec i r.state with
    | next t =>
      rw [Run.perform_of_next hrf he] at hr
      exact ⟨⟨hr, hrf⟩, t, rfl⟩
    | refused why =>
      rw [Run.perform_of_refused hrf he] at hr
      exact absurd hr (by simp)
    | fault f => rw [Run.perform_of_fault hrf he] at hf; cases hf

/-- A refusal and a fault are kept (R203), so a run with none at its end had none at its start. -/
theorem Run.clean_of_clean_performAll (tr : List Instr) : ∀ {r : Run}, (r.performAll tr).clean → r.clean := by
  induction tr with
  | nil => exact fun h => h
  | cons i tr ih =>
    intro r h
    obtain ⟨hr, -⟩ := Run.clean_perform_cases (ih h)
    exact hr

/-- A step on the trace's next code, where performing its event answers a next state (R70). -/
theorem step_of_exec_next {s t : State} {ev : EventCode} (h : exec (decode ev) s = .next t) (rest : List EventCode) :
    step { s with pending := ev :: rest } = .next { t with pending := rest } :=
  (step_of_cons rfl).trans (exec_with_pending h rest)

/-- The machine's steps from the state of a run reach the state the run reaches, from any run so far. -/
theorem core_run_of_clean (rest codes : List EventCode) : ∀ r : Run, r.state.pending = rest →
    (r.performAll (codes.map decode)).clean →
    core.run codes.length { r.state with pending := codes ++ rest } = .next (r.performAll (codes.map decode)).state := by
  induction codes with
  | nil => rintro r rfl -; rfl
  | cons ev codes ih =>
    intro r hp h
    obtain ⟨⟨-, hf⟩, t, ht⟩ := Run.clean_perform_cases (Run.clean_of_clean_performAll _ h)
    have hstep : core.step { r.state with pending := ev :: (codes ++ rest) } = .next { t with pending := codes ++ rest } :=
      step_of_exec_next ht (codes ++ rest)
    rw [List.map_cons, Run.performAll_cons, Run.perform_of_next hf ht] at h ⊢
    exact (core_run_succ hstep).trans (ih _ ((pending_of_exec_next ht).trans hp) h)

/-- Settles O7: each step performs the event the run performs, and what is still to come makes no difference to it. -/
theorem stepsReachTheStateOfTheRun : Obligations.StepsReachTheStateOfTheRun :=
  fun s codes rest => core_run_of_clean rest codes (Run.start { s with pending := rest }) rfl

-- The reach of the frame buffer (R51).

theorem exec_pulseOf (b : Bool) (s : State) :
    exec (pulseOf b) s = .next (State.drive (pulseOf b) none none s (s.capture b)) := by
  cases b <;> rfl

/-- A pulse writes the cell at COUNT below capacity, and no cell at capacity (R100, R103). -/
theorem read_capture (b : Bool) (s : State) (k : Nat) :
    Memory.read k (s.capture b).buf = if k = s.count ∧ s.count < s.cfg.cap then some b else Memory.read k s.buf := by
  by_cases hc : s.count < s.cfg.cap
  · simp [State.capture_of_lt b hc, hc, Memory.read_write]
  · simp [State.capture_of_ge b (Nat.le_of_not_lt hc), hc]

/-- DECODE copies out the cells below COUNT and clears the rest unread (R58). -/
theorem exec_decode_with_buf {s : State} {m : Memory} (h : ∀ k, k < s.count → Memory.read k m = Memory.read k s.buf) :
    exec .decode { s with buf := m } = exec .decode s := by
  have hsnap : State.snapshot { s with buf := m } = s.snapshot :=
    Memory.readBits_congr fun k _ hk => h k (hk.trans_eq (Nat.zero_add _))
  cases hs : s.snapshot with
  | error k => rw [exec_decode_of_error hs, exec_decode_of_error (hsnap.trans hs)]
  | ok bits =>
    rw [exec_decode_of_ok hs, exec_decode_of_ok (hsnap.trans hs)]
    rfl

/-- NOP, TICK and READY leave the frame (R20). -/
theorem dropped_of_quiet {i : Instr} {s t : State} (hi : isQuiet i = true) (h : exec i s = .next t) : Dropped s t := by
  have hquiet : isPulse i = false ∧ i ≠ .decode ∧ i ≠ .reset := by revert hi; cases i <;> decide
  obtain ⟨hp, hd, hr⟩ := hquiet
  exact (frame_of_exec_next hp h).resolve_right fun ⟨hdr, _⟩ => hdr.elim hd hr

/-- Settles O27: the one write of a pulse is at COUNT, and DECODE's snapshot ends below it. -/
theorem frameBufferIsReachedOnlyAtTheFrame : Obligations.FrameBufferIsReachedOnlyAtTheFrame := by
  refine ⟨fun b s t he k => ?_, fun s m => exec_decode_with_buf, fun i s t hi he => ?_⟩
  · cases (exec_pulseOf b s).symm.trans he
    exact read_capture b s k
  · obtain ⟨-, hb, -⟩ := dropped_of_quiet hi he
    exact hb

-- The traces of the agents' events (R59, R13).

theorem issuedBy_cons (a a' : Agent) (i : Instr) (tagged : List (Agent × Instr)) :
    issuedBy a ((a', i) :: tagged) = if a' = a then i :: issuedBy a tagged else issuedBy a tagged := by
  by_cases h : a' = a <;> simp [issuedBy, h]

/-- Nobody may issue the reserved code (R72, R73). -/
theorem Agent.wellFormed_of_mayIssue {a : Agent} {i : Instr} (h : a.mayIssue i = true) : i.wellFormed = true := by
  cases i with
  | reserved => cases h
  | nop | pulse0 | pulse1 | tick | ready | decode | reset => rfl

/-- Each agent's events stand in the trace in the order it issued them (R59). -/
theorem Interleaving.sublists {ps cs hs tr : List Instr} (h : Interleaving ps cs hs tr) :
    ps.Sublist tr ∧ cs.Sublist tr ∧ hs.Sublist tr := by
  induction h with
  | nil => exact ⟨.slnil, .slnil, .slnil⟩
  | producer _ _ ih => obtain ⟨hp, hc, hh⟩ := ih; exact ⟨hp.cons_cons _, hc.cons _, hh.cons _⟩
  | consumer _ _ ih => obtain ⟨hp, hc, hh⟩ := ih; exact ⟨hp.cons _, hc.cons_cons _, hh.cons _⟩
  | host _ _ ih => obtain ⟨hp, hc, hh⟩ := ih; exact ⟨hp.cons _, hc.cons _, hh.cons_cons _⟩

theorem Interleaving.perm {ps cs hs tr : List Instr} (h : Interleaving ps cs hs tr) : tr.Perm (ps ++ cs ++ hs) := by
  induction h with
  | nil => exact .refl _
  | producer _ _ ih => exact ih.cons _
  | @consumer _ _ _ hs _ _ _ ih => exact (ih.cons _).trans (List.perm_middle.symm.append_right hs)
  | host _ _ ih => exact (ih.cons _).trans List.perm_middle.symm

theorem Interleaving.mayIssue {ps cs hs tr : List Instr} (h : Interleaving ps cs hs tr) :
    (∀ i ∈ ps, Agent.producer.mayIssue i = true) ∧ (∀ i ∈ cs, Agent.consumer.mayIssue i = true) ∧
    (∀ i ∈ hs, Agent.host.mayIssue i = true) := by
  induction h with
  | nil => exact ⟨nofun, nofun, nofun⟩
  | producer may _ ih => obtain ⟨hp, hc, hh⟩ := ih; exact ⟨List.forall_mem_cons.mpr ⟨may, hp⟩, hc, hh⟩
  | consumer may _ ih => obtain ⟨hp, hc, hh⟩ := ih; exact ⟨hp, List.forall_mem_cons.mpr ⟨may, hc⟩, hh⟩
  | host may _ ih => obtain ⟨hp, hc, hh⟩ := ih; exact ⟨hp, hc, List.forall_mem_cons.mpr ⟨may, hh⟩⟩

/-- Every event of an agents' trace may be sent (R73). -/
theorem Interleaving.wellFormed {ps cs hs tr : List Instr} (h : Interleaving ps cs hs tr) :
    ∀ i ∈ tr, i.wellFormed = true := by
  induction h with
  | nil => nofun
  | producer may _ ih | consumer may _ ih | host may _ ih =>
    exact List.forall_mem_cons.mpr ⟨Agent.wellFormed_of_mayIssue may, ih⟩

/-- A list of events, each with an agent that may issue it, is a trace of what each agent issued. -/
theorem interleaving_of_tagged (tagged : List (Agent × Instr)) (h : ∀ x ∈ tagged, x.1.mayIssue x.2 = true) :
    Interleaving (issuedBy .producer tagged) (issuedBy .consumer tagged) (issuedBy .host tagged) (tagged.map (·.2)) := by
  induction tagged with
  | nil => exact .nil
  | cons x tagged ih =>
    obtain ⟨a, i⟩ := x
    obtain ⟨may, hrest⟩ := List.forall_mem_cons.mp h
    cases a with
    | producer => simpa [issuedBy_cons] using Interleaving.producer may (ih hrest)
    | consumer => simpa [issuedBy_cons] using Interleaving.consumer may (ih hrest)
    | host => simpa [issuedBy_cons] using Interleaving.host may (ih hrest)

/-- A choice of turns that makes the trace `tr` of what each agent issued. -/
def Tags (ps cs hs tr : List Instr) (tagged : List (Agent × Instr)) : Prop :=
  (∀ x ∈ tagged, x.1.mayIssue x.2 = true) ∧ tagged.map (·.2) = tr ∧
    issuedBy .producer tagged = ps ∧ issuedBy .consumer tagged = cs ∧ issuedBy .host tagged = hs

theorem Interleaving.exists_tagged {ps cs hs tr : List Instr} (h : Interleaving ps cs hs tr) :
    ∃ tagged, Tags ps cs hs tr tagged := by
  induction h with
  | nil => exact ⟨[], nofun, rfl, rfl, rfl, rfl⟩
  | @producer i _ _ _ _ may _ ih =>
    obtain ⟨tagged, hm, rfl, rfl, rfl, rfl⟩ := ih
    exact ⟨(.producer, i) :: tagged, List.forall_mem_cons.mpr ⟨may, hm⟩, rfl, by simp [issuedBy_cons]⟩
  | @consumer i _ _ _ _ may _ ih =>
    obtain ⟨tagged, hm, rfl, rfl, rfl, rfl⟩ := ih
    exact ⟨(.consumer, i) :: tagged, List.forall_mem_cons.mpr ⟨may, hm⟩, rfl, by simp [issuedBy_cons]⟩
  | @host i _ _ _ _ may _ ih =>
    obtain ⟨tagged, hm, rfl, rfl, rfl, rfl⟩ := ih
    exact ⟨(.host, i) :: tagged, List.forall_mem_cons.mpr ⟨may, hm⟩, rfl, by simp [issuedBy_cons]⟩

/-- Settles O35: by induction over the interleaving, and over the choice of turns. -/
theorem interleavingKeepsEachAgentsOrder : Obligations.InterleavingKeepsEachAgentsOrder := by
  refine ⟨fun ps cs hs tr h => ?_, interleaving_of_tagged, fun ps cs hs tr => Interleaving.exists_tagged⟩
  obtain ⟨hp, hc, hh⟩ := h.sublists
  obtain ⟨mayp, mayc, mayh⟩ := h.mayIssue
  exact ⟨h.perm, hp, hc, hh, mayp, mayc, mayh, h.wellFormed⟩

-- The destructive read (R57).

/-- DECODE of an empty frame (R142, R154). -/
theorem exec_decode_of_count_zero {s : State} (h : s.count = 0) :
    exec .decode s = .next (State.drive .decode none (some (zeroRecord 0)) s s.clearFrame) := by
  have hs : s.snapshot = .ok [] := by rw [State.snapshot, h, Memory.readBits]
  rw [exec_decode_of_ok hs, h, cardRecord_of_ne (by decide), zeroRecord]

/-- Settles O55: READY drives the ports over the state as it was; DECODE leaves an empty frame behind. -/
theorem decodeIsADestructiveReadAndReadyIsNot : Obligations.DecodeIsADestructiveReadAndReadyIsNot := by
  intro s hs
  obtain ⟨bits, hbits⟩ := hs.snapshot
  constructor
  · exact ⟨_, _, exec_ready s, ⟨rfl, rfl, rfl, rfl, rfl, rfl⟩, exec_ready _, ⟨rfl, rfl, rfl, rfl, rfl, rfl⟩, rfl⟩
  · exact ⟨_, _, exec_decode_of_ok hbits, rfl, rfl, rfl, exec_decode_of_count_zero rfl, State.sampleCard_drive_some ..⟩

-- Pulses one after another (R60, R103).

/-- A pulse's bit joins the frame at its end, and is cut off at capacity (R100, R101, R103). -/
theorem snapshot_capture {s : State} {bits : List Bool} (hs : s.snapshot = .ok bits) (hle : s.count ≤ s.cfg.cap) (b : Bool) :
    (s.capture b).snapshot = .ok ((bits ++ [b]).take s.cfg.cap) := by
  have hl := State.length_of_snapshot hs
  by_cases hc : s.count < s.cfg.cap
  · have htake : (bits ++ [b]).take s.cfg.cap = bits ++ [b] :=
      List.take_of_length_le (by rw [List.length_append, List.length_singleton]; omega)
    rw [State.capture_of_lt b hc, htake]
    exact State.snapshot_appendBit hs b
  · rw [State.capture_of_ge b (Nat.le_of_not_lt hc), List.take_left' (by omega)]
    exact hs

/-- A trace that ends in a pulse: the bit is captured in the state reached before it. -/
theorem Inv.runFrom_concat_pulse {s : State} (h : Inv s) (tr : List Instr) (b : Bool) :
    (runFrom s (tr ++ [pulseOf b])).state =
      State.drive (pulseOf b) none none (runFrom s tr).state ((runFrom s tr).state.capture b) := by
  have hf : (runFrom s tr).fault = none := Run.performAll_fault_of_inv tr h rfl
  rw [runFrom, Run.performAll_append]
  exact congrArg Run.state (Run.perform_of_next hf (exec_pulseOf b _))

/-- A frame cut at capacity takes no more bits than the whole one, cut there. -/
theorem take_append_take (n : Nat) (xs ys : List Bool) : (xs.take n ++ ys).take n = (xs ++ ys).take n := by
  rw [List.take_append, List.take_append, List.take_take, Nat.min_self, List.length_take]
  congr 2
  omega

/-- The frame after any number of pulses: their bits in order, cut at CAP (R22, R103). -/
theorem Inv.snapshot_runFrom_pulses {s : State} {bits : List Bool} (h : Inv s) (hs : s.snapshot = .ok bits) (bs : List Bool) :
    (runFrom s (bs.map pulseOf)).state.snapshot = .ok ((bits ++ bs).take s.cfg.cap) := by
  induction bs using List.reverseRecOn with
  | nil =>
    have hle : bits.length ≤ s.cfg.cap := (State.length_of_snapshot hs).trans_le h.count_le
    rw [List.append_nil, List.take_of_length_le hle]
    exact hs
  | append_singleton bs b ih =>
    have hcap := snapshot_capture ih (inv_runFrom h _).count_le b
    rw [runFrom_cfg, take_append_take, List.append_assoc] at hcap
    rw [List.map_append, List.map_singleton, h.runFrom_concat_pulse]
    exact hcap

/-- A trace that ends in a pulse leaves the window just opened (R105). -/
theorem Inv.window_runFrom_concat_pulse {s : State} (h : Inv s) (tr : List Instr) (b : Bool) :
    (runFrom s (tr ++ [pulseOf b])).state.wd = s.cfg.tWait ∧ (runFrom s (tr ++ [pulseOf b])).state.fin = false := by
  rw [h.runFrom_concat_pulse]
  exact ⟨by rw [State.drive_wd, State.capture_wd, runFrom_cfg], by rw [State.drive_fin, State.capture_fin]⟩

/-- Settles O56: both frames hold the two bits in their order, cut at CAP, and so are equally long; both windows are just opened. -/
theorem simultaneousPulsesDifferOnlyInTheirOrder : Obligations.SimultaneousPulsesDifferOnlyInTheirOrder := by
  intro s bits h hs t u
  have ht : t.snapshot = .ok ((bits ++ [false, true]).take s.cfg.cap) := h.snapshot_runFrom_pulses hs [false, true]
  have hu : u.snapshot = .ok ((bits ++ [true, false]).take s.cfg.cap) := h.snapshot_runFrom_pulses hs [true, false]
  have hcount : t.count = u.count := by
    rw [← State.length_of_snapshot ht, ← State.length_of_snapshot hu]
    simp
  obtain ⟨htw, htf⟩ : t.wd = s.cfg.tWait ∧ t.fin = false := h.window_runFrom_concat_pulse [.pulse0] true
  obtain ⟨huw, huf⟩ : u.wd = s.cfg.tWait ∧ u.fin = false := h.window_runFrom_concat_pulse [.pulse1] false
  exact ⟨ht, hu, hcount, htw.trans huw.symm, htf.trans huf.symm, (runFrom_cfg s _).trans (runFrom_cfg s _).symm⟩

end Sys2Proof.Machine

/-! Proofs for `30_encoding.md`: the opcode map and its inverse, the words that are events, the trace as codes and as text, the
pseudo-events, and the event a step performs. -/

namespace Sys2Proof.Machine

-- Events as codes (R71 to R73).

@[simp] theorem decode_encode (i : Instr) : decode (encode i) = i := by
  cases i <;> rfl

@[simp] theorem encode_decode (ev : EventCode) : encode (decode ev) = ev := by
  revert ev
  decide

/-- The map's patterns are the eight codes, in the table's order, so the row of a code is the row of its event (R72). -/
theorem opcodeTable_eq_map_encode :
    opcodeTable =
      [Instr.nop, .pulse0, .pulse1, .tick, .ready, .decode, .reserved, .reset].map fun i => ⟨0b111#3, encode i, i⟩ := rfl

/-- The mask 111 compares all three bits (R72). -/
theorem rowMatches_of_full_mask (ev : EventCode) (i : Instr) : rowMatches ev ⟨0b111#3, encode i, i⟩ = (decode ev == i) := by
  have hmask : ev &&& 0b111#3 = ev := BitVec.and_allOnes
  rw [rowMatches, hmask, Bool.eq_iff_iff, beq_iff_eq, beq_iff_eq]
  constructor
  · rintro rfl
    exact decode_encode i
  · rintro rfl
    exact (encode_decode ev).symm

/-- Every code selects exactly its event's row (R72). -/
theorem filter_rowMatches (ev : EventCode) : (opcodeTable.filter (rowMatches ev)).map (·.instr) = [decode ev] := by
  rw [opcodeTable_eq_map_encode, List.filter_map, List.map_map]
  have hrow : rowMatches ev ∘ (fun i => ⟨0b111#3, encode i, i⟩) = fun i => decode ev == i :=
    funext (rowMatches_of_full_mask ev)
  rw [hrow]
  cases decode ev <;> rfl

/-- Settles O1: the rows' patterns are the events' codes, compared in all three bits, so the row of a code is the row of its event; an
event's agent is read off `mayIssue`. -/
theorem eventCodesFollowTheOpcodeMap : Obligations.EventCodesFollowTheOpcodeMap :=
  ⟨⟨rfl, rfl, rfl, rfl, rfl, rfl, rfl, rfl⟩, filter_rowMatches, by decide, fun a => by simp [Agent.mayIssue]⟩

/-- R73: the events the block may be sent are those whose code is not 110. -/
theorem wellFormed_iff_encode_ne (i : Instr) : i.wellFormed = true ↔ encode i ≠ 0b110#3 := by
  cases i with
  | nop => exact Laws.UnreservedCode.nop
  | pulse0 => exact Laws.UnreservedCode.pulse0
  | pulse1 => exact Laws.UnreservedCode.pulse1
  | tick => exact Laws.UnreservedCode.tick
  | ready => exact Laws.UnreservedCode.ready
  | decode => exact Laws.UnreservedCode.decode
  | reserved => exact Laws.UnreservedCode.reserved
  | reset => exact Laws.UnreservedCode.reset

/-- Settles O2: both round trips, and the reserved code alone is ill-formed. -/
theorem encodeAndDecodeAreInverse : Obligations.EncodeAndDecodeAreInverse :=
  ⟨decode_encode, encode_decode, wellFormed_iff_encode_ne⟩

theorem decodeWord_of_lt {w : Nat} (h : w < 8) : decodeWord w = .ok (decode (BitVec.ofNat 3 w)) := if_pos h

theorem decodeWord_of_ge {w : Nat} (h : 8 ≤ w) : decodeWord w = .error (.notAnEventCode w) := if_neg (Nat.not_lt.mpr h)

/-- Settles O3: the decoder's two branches. -/
theorem onlyThreeBitWordsAreEvents : Obligations.OnlyThreeBitWordsAreEvents :=
  fun _ => ⟨decodeWord_of_lt, decodeWord_of_ge⟩

/-- Settles O22: the code 110 is the reserved event's, whose meaning is a refusal. -/
theorem reservedCodeIsRefused : Obligations.ReservedCodeIsRefused :=
  ⟨decode_encode .reserved, exec_reserved⟩

/-- The encoding of a trace loses no event (R77). -/
theorem map_decode_encodeTrace (tr : List Instr) : (encodeTrace tr).map decode = tr := by
  simp [encodeTrace, Function.comp_def]

-- A step's event (R70).

/-- Settles O6: a placed word below 8 is its own three low bits, however many bits of it count. -/
theorem stepPerformsTheNextEvent : Obligations.StepPerformsTheNextEvent := by
  refine ⟨fun _ _ _ => step_of_cons, fun _ => step_of_nil, fun s nbits w hn hw => ?_⟩
  have hlt : w < 2 ^ nbits := hw.trans_le (Nat.pow_le_pow_right Nat.two_pos hn)
  rw [step_withFetchWord, Nat.mod_eq_of_lt hlt]

-- The text of a trace (R77).

theorem cutAt_ne_nil (p : Char → Bool) : ∀ text : Text, cutAt p text ≠ []
  | [] => by simp [cutAt]
  | c :: cs => by
    rw [cutAt]
    split
    · simp
    · split <;> simp

/-- A text is cut at the first character that satisfies `p`. -/
theorem cutAt_append_cons {p : Char → Bool} {w : Text} {c : Char} (hw : ∀ x ∈ w, p x = false) (hc : p c = true) (rest : Text) :
    cutAt p (w ++ c :: rest) = w :: cutAt p rest := by
  induction w with
  | nil =>
    obtain ⟨u, us, hu⟩ := List.exists_cons_of_ne_nil (cutAt_ne_nil p rest)
    simp [cutAt, hu, hc]
  | cons x w ih =>
    have hx : p x = false := hw x List.mem_cons_self
    rw [List.cons_append, cutAt, ih fun y hy => hw y (List.mem_cons_of_mem x hy)]
    simp [hx]

theorem mnemonicOf_eq_none_iff {i : Instr} : mnemonicOf i = none ↔ i = .reserved := by
  cases i <;> simp [mnemonicOf]

/-- The events with a mnemonic are those the block may be sent (R73, R77). -/
theorem exists_mnemonicOf_of_wellFormed {i : Instr} (h : i.wellFormed = true) : ∃ w, mnemonicOf i = some w := by
  refine Option.ne_none_iff_exists'.mp fun hn => ?_
  rw [mnemonicOf_eq_none_iff.mp hn] at h
  cases h

/-- A mnemonic stands on one line, and that line is read as its event (R77). -/
theorem line_of_mnemonicOf {i : Instr} {w : Text} (h : mnemonicOf i = some w) :
    (∀ c ∈ w, (c == '\n') = false) ∧ parseWords (wordsOf w) = .ok (some (.event i)) := by
  cases i with
  | reserved => cases h
  | _ => cases h; exact ⟨by simp, by decide⟩

/-- A trace whose first line is a mnemonic is that event, and then the trace of the lines after it (R77). -/
theorem parseTrace_mnemonic_line {i : Instr} {w text : Text} {xs : List TraceItem} (hw : mnemonicOf i = some w)
    (ht : parseTrace text = .ok xs) : parseTrace (w ++ '\n' :: text) = .ok (.event i :: xs) := by
  obtain ⟨hline, hparse⟩ := line_of_mnemonicOf hw
  rw [parseTrace] at ht
  rw [parseTrace, cutAt_append_cons hline rfl, parseLines, hparse]
  simp [ht]

theorem printTrace_cons_of_ok {i : Instr} {tr : List Instr} {w text : Text} (hw : mnemonicOf i = some w)
    (ht : printTrace tr = .ok text) : printTrace (i :: tr) = .ok (w ++ '\n' :: text) := by
  simp [printTrace, hw, ht]

theorem printTrace_cons_of_error {i : Instr} {tr : List Instr} {w : Text} {e : TraceError} (hw : mnemonicOf i = some w)
    (ht : printTrace tr = .error e) : printTrace (i :: tr) = .error e := by
  simp [printTrace, hw, ht]

theorem printTrace_cons_of_none {i : Instr} (hi : mnemonicOf i = none) (tr : List Instr) :
    printTrace (i :: tr) = .error (.noMnemonic i) := by
  simp [printTrace, hi]

/-- A trace the block may be sent is printed as a text that reads back as it (R77). -/
theorem parseTrace_printTrace {tr : List Instr} (h : ∀ i ∈ tr, i.wellFormed = true) :
    ∃ text, printTrace tr = .ok text ∧ parseTrace text = .ok (tr.map .event) := by
  induction tr with
  | nil => exact ⟨[], rfl, rfl⟩
  | cons i tr ih =>
    obtain ⟨w, hw⟩ := exists_mnemonicOf_of_wellFormed (h i List.mem_cons_self)
    obtain ⟨text, hprint, hparse⟩ := ih fun j hj => h j (List.mem_cons_of_mem i hj)
    exact ⟨_, printTrace_cons_of_ok hw hprint, parseTrace_mnemonic_line hw hparse⟩

/-- A trace with the reserved code has no text, and is refused one by that event's name (log entry 11). -/
theorem printTrace_of_mem_reserved {tr : List Instr} (h : .reserved ∈ tr) :
    printTrace tr = .error (.noMnemonic .reserved) := by
  induction tr with
  | nil => cases h
  | cons i tr ih =>
    cases hw : mnemonicOf i with
    | none =>
      rw [printTrace_cons_of_none hw, mnemonicOf_eq_none_iff.mp hw]
    | some w =>
      have hne : i ≠ .reserved := fun hi => by rw [hi] at hw; cases hw
      exact printTrace_cons_of_error hw (ih ((List.mem_cons.mp h).resolve_left hne.symm))

/-- Settles O4: by induction over the trace, one mnemonic line an event; a code is its event's. -/
theorem traceTextAndEncodingReadBack : Obligations.TraceTextAndEncodingReadBack :=
  fun tr => ⟨parseTrace_printTrace, printTrace_of_mem_reserved, map_decode_encodeTrace tr⟩

-- The pseudo-events (R78).

/-- The TICK and the READY of a POLL: READY returns the level that the TICK leaves (R78, R121). -/
theorem Inv.performAll_tick_ready {s : State} (h : Inv s) : ∃ t, Inv t ∧
    (Run.start s).performAll [.tick, .ready] =
      ⟨t, [⟨.tick, s.ready, none, none⟩, ⟨.ready, s.countDown.ready, some s.countDown.ready, none⟩], none, none⟩ :=
  ⟨_, (h.countDown.drive ..).drive .., rfl⟩

/-- The DECODE of a POLL completes under the invariant and drives a record (R141). -/
theorem Run.perform_decode_of_inv {r : Run} (h : Inv r.state) (hf : r.fault = none) : ∃ t c,
    r.perform .decode =
      { r with state := t, observation := r.observation ++ [⟨.decode, r.state.ready, none, some c⟩] } := by
  obtain ⟨bits, hbits⟩ := h.snapshot
  exact ⟨_, _, Run.perform_of_next hf (exec_decode_of_ok hbits)⟩

/-- A POLL where the TICK leaves no ready frame is that TICK and a READY (R78). -/
theorem TraceItem.expand_poll_of_not_ready {s : State} (h : s.countDown.ready = false) :
    TraceItem.expand s .poll = [.tick, .ready] := by
  simp [TraceItem.expand, h]

/-- A POLL where the TICK leaves a ready frame decodes it (R78). -/
theorem TraceItem.expand_poll_of_ready {s : State} (h : s.countDown.ready = true) :
    TraceItem.expand s .poll = [.tick, .ready] ++ [.decode] := by
  simp [TraceItem.expand, h]

/-- A POLL from a state of the invariant performs its TICK and its READY, and a DECODE exactly where that READY returned 1 (R78). -/
theorem Inv.performItem_poll {s : State} (h : Inv s) {r : Run} (hr : r = (Run.start s).performItem .poll) :
    r.clean ∧ r.results = [s.countDown.ready] ∧
    r.observation.map (·.event) = (if s.countDown.ready then [.tick, .ready, .decode] else [.tick, .ready]) := by
  obtain ⟨t, ht, hpoll⟩ := h.performAll_tick_ready
  rw [Run.performItem, Run.start_state] at hr
  cases hb : s.countDown.ready with
  | false =>
    rw [TraceItem.expand_poll_of_not_ready hb, hpoll, hb] at hr
    subst hr
    exact ⟨⟨rfl, rfl⟩, rfl, rfl⟩
  | true =>
    rw [TraceItem.expand_poll_of_ready hb, Run.performAll_append, hpoll, hb] at hr
    obtain ⟨u, c, hdecode⟩ := Run.perform_decode_of_inv (r := ⟨t, _, none, none⟩) ht rfl
    rw [Run.performAll_cons, hdecode] at hr
    subst hr
    exact ⟨⟨rfl, rfl⟩, rfl, rfl⟩

/-- Settles O5: the expansions are R78's; POLL's test is the level its TICK leaves, which is what its READY returns. -/
theorem pseudoEventsExpandAsGiven : Obligations.PseudoEventsExpandAsGiven :=
  ⟨fun _ _ => rfl, fun _ _ => rfl, fun _ => rfl, fun s h => ⟨s.countDown.ready, h.performItem_poll rfl⟩⟩

end Sys2Proof.Machine

/-! Proofs for `40_capture.md`: what a pulse does in every state, the window it opens, and a transmission of any length. -/

namespace Sys2Proof.Machine

-- A pulse (R100, R101): its two cases, and the window it opens.

/-- Below capacity the bit is stored at COUNT, shifted into the accumulator of its index, and counted. -/
theorem appended_capture {s : State} (h : s.count < s.cfg.cap) (b : Bool) : Appended b s (s.capture b) := by
  rw [State.capture_of_lt b h]
  refine ⟨rfl, Memory.read_write_self .., fun k hk => Memory.read_write_of_ne hk .., fun hlt => ?_, fun hge => ?_⟩
  · simp [hlt, toNat_shiftIn]
  · simp [Nat.not_lt.mpr hge, toNat_shiftIn]

/-- At capacity the bit is dropped (R103). -/
theorem dropped_capture {s : State} (h : s.cfg.cap ≤ s.count) (b : Bool) : Dropped s (s.capture b) := by
  rw [State.capture_of_ge b h]
  exact ⟨rfl, rfl, rfl, rfl⟩

/-- A pulse in every state: its step completes (R107), the bit is appended or dropped (R100, R101, R103), and the window opens whether
the bit was stored or not (R104, R105). -/
theorem exec_pulseOf_effect (b : Bool) (s : State) : ∃ t, exec (pulseOf b) s = .next t ∧
    (s.count < s.cfg.cap → Appended b s t) ∧ (s.cfg.cap ≤ s.count → Dropped s t) ∧
    t.wd = s.cfg.tWait ∧ t.fin = false ∧ t.ready = false ∧ Shows (pulseOf b) none none s t :=
  ⟨_, exec_pulseOf b s, fun h => appended_capture h b, fun h => dropped_capture h b, State.capture_wd b s, State.capture_fin b s,
    State.ready_capture b s, rfl, State.capture_cfg b s, State.capture_pending b s⟩

/-- Settles O9: a pulse of the bit 0. -/
theorem pulseZeroAppendsZero : Obligations.PulseZeroAppendsZero :=
  ⟨rfl, exec_pulseOf_effect false⟩

/-- Settles O11: a pulse at COUNT = CAP is in the second case of every pulse. -/
theorem pulseAtCapacityIsDroppedButIsActivity : Obligations.PulseAtCapacityIsDroppedButIsActivity := by
  intro b s hfull
  obtain ⟨t, ht, -, hdropped, hwd, hfin, hready, -⟩ := exec_pulseOf_effect b s
  exact ⟨t, ht, hdropped hfull.ge, hwd, hfin, hready⟩

/-- Settles O40: what every pulse does to the window does not depend on whether its bit is stored. -/
theorem pulseIsNeverReadyAndNeverWaits : Obligations.PulseIsNeverReadyAndNeverWaits := by
  intro b s
  obtain ⟨t, ht, -, -, hwd, hfin, hready, -⟩ := exec_pulseOf_effect b s
  exact ⟨t, ht, hwd, hfin, hready⟩

-- A transmission from power-on (R79): its frame, and the accumulators it leaves.

/-- The frame of a transmission from power-on is its first CAP bits (R103). -/
theorem snapshot_transmission {c : Config} (hc : c.wellFormed = true) (bits : List Bool) :
    (runFrom (State.powerOn c []) (bits.map pulseOf)).state.snapshot = .ok (bits.take c.cap) :=
  (inv_powerOn hc []).snapshot_runFrom_pulses (State.snapshot_powerOn c []) bits

/-- A transmission that fits the buffer leaves its first 22 bits folded in ACC_A and the others in ACC_B (INV4, INV5). -/
theorem accumulators_transmission {c : Config} (hc : c.wellFormed = true) {bits : List Bool} (hl : bits.length ≤ c.cap) :
    (runFrom (State.powerOn c []) (bits.map pulseOf)).state.accA.toNat = fold (bits.take 22) ∧
    (runFrom (State.powerOn c []) (bits.map pulseOf)).state.accB.toNat = fold (bits.drop 22) % 2 ^ 26 := by
  have hinv := inv_runFrom (inv_powerOn hc []) (bits.map pulseOf)
  have hs := snapshot_transmission hc bits
  rw [List.take_of_length_le hl] at hs
  exact ⟨hinv.accA_eq bits hs, hinv.accB_eq bits hs⟩

/-- Settles O10: a pulse of the bit 1; and at most 26 of them fit every buffer (R8), so the accumulators are folds of ones. -/
theorem pulseOneAppendsOne : Obligations.PulseOneAppendsOne := by
  refine ⟨rfl, exec_pulseOf_effect true, fun c hc => ?_⟩
  obtain ⟨hcap, -, -⟩ := Config.limits_of_wellFormed hc
  have hpulses (n : Nat) : List.replicate n Instr.pulse1 = (List.replicate n true).map pulseOf := by
    rw [List.map_replicate]
    rfl
  obtain ⟨hA, -⟩ := accumulators_transmission hc (bits := List.replicate 22 true) (by rw [List.length_replicate]; omega)
  obtain ⟨hA', hB'⟩ := accumulators_transmission hc (bits := List.replicate 26 true) (by rw [List.length_replicate]; omega)
  rw [hpulses, hpulses]
  refine ⟨BitVec.eq_of_toNat_eq ?_, BitVec.eq_of_toNat_eq ?_, BitVec.eq_of_toNat_eq ?_⟩
  · rw [hA]; decide
  · rw [hA']; decide
  · rw [hB']; decide

-- The window under NOP, TICK and READY (R106, R120).

theorem exists_exec_next_of_quiet {i : Instr} (hi : isQuiet i = true) (s : State) : ∃ t, exec i s = .next t := by
  cases i with
  | nop => exact ⟨_, exec_nop s⟩
  | tick => exact ⟨_, exec_tick s⟩
  | ready => exact ⟨_, exec_ready s⟩
  | pulse0 | pulse1 | decode | reserved | reset => cases hi

/-- A TICK takes WD down by one, and at 0 it leaves it, since INV2 has FIN = 1 there (R120). -/
theorem Inv.countDown_wd {s : State} (h : Inv s) : s.countDown.wd = s.wd - 1 := by
  cases hf : s.fin with
  | true => rw [State.countDown_of_fin hf, h.fin_iff.mp hf]
  | false => rw [State.countDown_of_not_fin hf]

theorem tickCount_cons (i : Instr) (tr : List Instr) : tickCount (i :: tr) = tickCount [i] + tickCount tr :=
  List.countP_append (l₁ := [i])

/-- Of the quiet events only TICK takes WD down (R20). -/
theorem Inv.wd_of_quiet {i : Instr} {s t : State} (h : Inv s) (hi : isQuiet i = true) (he : exec i s = .next t) :
    t.wd = s.wd - tickCount [i] := by
  cases i with
  | nop => cases he; rfl
  | tick => cases he; exact h.countDown_wd
  | ready => cases he; rfl
  | pulse0 | pulse1 | decode | reserved | reset => cases hi

/-- A quiet trace leaves COUNT and takes WD down by its ticks, no further than 0 (R23). -/
theorem Run.performAll_quiet (tr : List Instr) : ∀ {r : Run}, Inv r.state → r.fault = none → (∀ i ∈ tr, isQuiet i = true) →
    (r.performAll tr).state.count = r.state.count ∧ (r.performAll tr).state.wd = r.state.wd - tickCount tr := by
  induction tr with
  | nil => exact fun _ _ _ => ⟨rfl, rfl⟩
  | cons i tr ih =>
    intro r h hf hq
    have hi : isQuiet i = true := hq i List.mem_cons_self
    obtain ⟨t, ht⟩ := exists_exec_next_of_quiet hi r.state
    obtain ⟨hcount, -⟩ := dropped_of_quiet hi ht
    have hwd := h.wd_of_quiet hi ht
    obtain ⟨ihc, ihw⟩ := ih (r := { r with state := t, observation := r.observation ++ t.out.toList }) (h.of_exec_next ht) hf
      fun j hj => hq j (List.mem_cons_of_mem _ hj)
    rw [Run.performAll_cons, Run.perform_of_next hf ht, tickCount_cons]
    exact ⟨ihc.trans hcount, by rw [ihw, hwd, Nat.sub_sub]⟩

/-- A frame of 26 bits or more is ready after a quiet trace exactly where its ticks have used up the window (R106, R124). -/
theorem Inv.ready_runFrom_quiet {s : State} (h : Inv s) (hlen : 26 ≤ s.count) {tr : List Instr}
    (hq : ∀ i ∈ tr, isQuiet i = true) : (runFrom s tr).state.ready = decide (s.wd ≤ tickCount tr) := by
  obtain ⟨hcount, hwd⟩ := Run.performAll_quiet tr (r := Run.start s) h rfl hq
  have hfin : (runFrom s tr).state.fin = true ↔ s.wd ≤ tickCount tr :=
    (inv_runFrom h tr).fin_iff.trans (by rw [runFrom, hwd]; exact Nat.sub_eq_zero_iff_le)
  have hlong : 26 ≤ (runFrom s tr).state.count := hlen.trans_eq hcount.symm
  rw [Bool.eq_iff_iff, State.ready_eq]
  simp [hfin, hlong]

/-- Settles O12: stored or dropped, the bit leaves a frame of at least 26 bits and the window just opened, which a quiet trace ends by
T_WAIT ticks and no fewer. -/
theorem latePulseJoinsTheReadyFrame : Obligations.LatePulseJoinsTheReadyFrame := by
  intro b s h hready
  have hlen : 26 ≤ s.count := by
    rw [State.ready_eq, Bool.and_eq_true, decide_eq_true_eq] at hready
    exact hready.2
  obtain ⟨t, ht, happended, hdropped, hwd, -, hnot, -⟩ := exec_pulseOf_effect b s
  have hlen' : 26 ≤ t.count := by
    rcases Nat.lt_or_ge s.count s.cfg.cap with hlt | hge
    · obtain ⟨hcount, -⟩ := happended hlt
      omega
    · obtain ⟨hcount, -⟩ := hdropped hge
      omega
  refine ⟨t, ht, fun hlt => ⟨happended hlt, ?_⟩, fun hfull => hdropped hfull.ge, hnot, fun tr hq => ?_⟩
  · obtain ⟨hcount, -⟩ := happended hlt
    omega
  · rw [(h.of_exec_next ht).ready_runFrom_quiet hlen' hq, hwd]

-- The record in closed form (R153, R154): what DECODE forms from the frame and the accumulators is a function of the frame.

theorem fold_take_drop (bits : List Bool) (n : Nat) :
    fold bits = fold (bits.take n) * 2 ^ (bits.length - n) + fold (bits.drop n) := by
  rw [← List.length_drop, ← fold_append, List.take_append_drop]

theorem fold_drop_lt (bits : List Bool) (n : Nat) : fold (bits.drop n) < 2 ^ (bits.length - n) := by
  rw [← List.length_drop]
  exact fold_lt _

/-- The first bits of a frame are the high bits of its number (R10). -/
theorem fold_take (bits : List Bool) (n : Nat) : fold (bits.take n) = fold bits / 2 ^ (bits.length - n) := by
  rw [fold_take_drop bits n, Nat.mul_comm, Nat.mul_add_div (Nat.two_pow_pos _), Nat.div_eq_of_lt (fold_drop_lt bits n),
    Nat.add_zero (fold _)]

/-- The last bits of a frame are the low bits of its number (R10). -/
theorem fold_drop (bits : List Bool) (n : Nat) : fold (bits.drop n) = fold bits % 2 ^ (bits.length - n) := by
  rw [fold_take_drop bits n, Nat.mul_add_mod_self_right, Nat.mod_eq_of_lt (fold_drop_lt bits n)]

/-- A slice of a frame is a field of the frame read as one number (R143, R144). -/
theorem fold_frameSlice {bits : List Bool} {hi : Nat} (lo : Nat) (hhi : hi < bits.length) :
    fold (frameSlice bits lo hi) = fold bits / 2 ^ (bits.length - (hi + 1)) % 2 ^ (hi + 1 - lo) := by
  rw [frameSlice, ← List.drop_take, fold_drop, fold_take, List.length_take, Nat.min_eq_left hhi]

/-- The low bits of PRE are ACC_A's bits 21 and 20 (R145), which for 22 bits are its highest. -/
theorem toNat_preamble_of_lt {a : Acc} (ha : a.toNat < 2 ^ 22) : (preamble a).toNat = 0x2004 + a.toNat / 2 ^ 20 := by
  rw [toNat_preamble, BitVec.getLsbD, BitVec.getLsbD, Nat.toNat_testBit, Nat.toNat_testBit]
  omega

/-- DECODE's record of a 26-bit frame in closed form (R153): PRE and CD put the two accumulators together again. -/
theorem cardRecord_of_26_bits {bits : List Bool} {a b : Acc} (hl : bits.length = 26) (ha : a.toNat = fold (bits.take 22))
    (hb : b.toNat = fold (bits.drop 22)) : cardRecord bits 26 a b = frameRecord bits := by
  have hA : fold (bits.take 22) < 2 ^ 22 := by simpa [hl] using fold_lt (bits.take 22)
  have hB : fold (bits.drop 22) < 2 ^ 4 := by simpa [hl] using fold_drop_lt bits 22
  have hV : fold bits = fold (bits.take 22) * 2 ^ 4 + fold (bits.drop 22) := by simpa [hl] using fold_take_drop bits 22
  have hpre : (preamble a).toNat = 0x2004 + fold (bits.take 22) / 2 ^ 20 := by rw [toNat_preamble_of_lt (ha ▸ hA), ha]
  have hcd : (cardData a b).toNat = fold (bits.take 22) % 2 ^ 20 * 2 ^ 4 + fold (bits.drop 22) := by
    rw [toNat_cardData, ha, hb, Nat.mod_eq_of_lt hB]
  have hfc : facilityCode bits = BitVec.ofNat 8 (fold bits / 2 ^ 17) := by
    apply BitVec.eq_of_toNat_eq
    rw [facilityCode, fold_frameSlice _ (by omega), hl, BitVec.toNat_ofNat, BitVec.toNat_ofNat, Nat.mod_mod]
  have huc : uniqueCode bits = BitVec.ofNat 16 (fold bits / 2) := by
    apply BitVec.eq_of_toNat_eq
    rw [uniqueCode, fold_frameSlice _ (by omega), hl, BitVec.toNat_ofNat, BitVec.toNat_ofNat]
    omega
  have hcomp : compositeValue (preamble a) (cardData a b) = BitVec.ofNat 44 (0x2004000000 + fold bits) := by
    apply BitVec.eq_of_toNat_eq
    rw [toNat_compositeValue, hpre, hcd, BitVec.toNat_ofNat]
    omega
  have hbin : binaryDigits (preamble a) (cardData a b) = BitVec.ofNat 26 (fold bits) := by
    apply BitVec.eq_of_toNat_eq
    rw [toNat_binaryDigits, hpre, hcd, BitVec.toNat_ofNat]
    omega
  rw [cardRecord_of_eq, recordOf, hfc, huc, hcomp, hbin, frameRecord, if_pos hl]

/-- Under the invariant DECODE's record is a function of the frame alone (R153, R154). -/
theorem Inv.cardRecord_eq {s : State} {bits : List Bool} (h : Inv s) (hs : s.snapshot = .ok bits) :
    cardRecord bits s.count s.accA s.accB = frameRecord bits := by
  have hl := State.length_of_snapshot hs
  by_cases hc : s.count = 26
  · have hB : fold (bits.drop 22) < 2 ^ 26 :=
      (fold_drop_lt bits 22).trans_le (Nat.pow_le_pow_right Nat.two_pos (by omega))
    rw [hc]
    exact cardRecord_of_26_bits (hl.trans hc) (h.accA_eq bits hs) ((h.accB_eq bits hs).trans (Nat.mod_eq_of_lt hB))
  · rw [cardRecord_of_ne hc, frameRecord, if_neg (hl ▸ hc), hl, zeroRecord]

theorem bitCount_frameRecord (bits : List Bool) : (frameRecord bits).bitCount = bits.length := by
  by_cases hl : bits.length = 26
  · rw [frameRecord, if_pos hl, hl]
  · rw [frameRecord, if_neg hl, zeroRecord]

-- The records of a run (R141).

/-- An event other than DECODE drives no record, so it adds none to a run. -/
theorem Run.cards_perform_of_ne_decode {i : Instr} (hi : i ≠ .decode) (r : Run) : (r.perform i).cards = r.cards := by
  obtain ⟨-, ho⟩ | ⟨t, ht, hp⟩ := r.perform_cases i
  · rw [Run.cards, ho, Run.cards]
  · obtain ⟨res, c, hout, hc⟩ := out_of_exec_next ht
    rw [hp, Run.cards, Run.cards, hout, hc hi]
    simp

theorem Run.cards_performAll_of_no_decode {tr : List Instr} (h : ∀ i ∈ tr, i ≠ .decode) (r : Run) :
    (r.performAll tr).cards = r.cards := by
  induction tr generalizing r with
  | nil => rfl
  | cons i tr ih =>
    rw [Run.performAll_cons, ih fun j hj => h j (List.mem_cons_of_mem _ hj), Run.cards_perform_of_ne_decode (h i List.mem_cons_self)]

/-- A DECODE in a run under the invariant adds the record of its frame (R141, R153). -/
theorem Run.cards_perform_decode {r : Run} {bits : List Bool} (h : Inv r.state) (hf : r.fault = none)
    (hs : r.state.snapshot = .ok bits) : (r.perform .decode).cards = r.cards ++ [frameRecord bits] := by
  rw [Run.perform_of_next hf (exec_decode_of_ok hs), h.cardRecord_eq hs, Run.cards, Run.cards]
  simp

/-- Settles O53: the transmission leaves its first CAP bits as the frame, and the one DECODE emits that frame's record. -/
theorem overrunKeepsTheFirstBits : Obligations.OverrunKeepsTheFirstBits := by
  intro c bits hc
  have hinv := inv_powerOn hc []
  have hpulses : ∀ i ∈ bits.map pulseOf, i ≠ .decode := by
    intro i hi
    obtain ⟨b, -, rfl⟩ := List.mem_map.mp hi
    cases b <;> decide
  constructor
  · have hf : (runFrom (State.powerOn c []) (bits.map pulseOf)).fault = none := Run.performAll_fault_of_inv _ hinv rfl
    have hnone : (runFrom (State.powerOn c []) (bits.map pulseOf)).cards = [] := Run.cards_performAll_of_no_decode hpulses _
    have hdecode := Run.cards_perform_decode (inv_runFrom hinv _) hf (snapshot_transmission hc bits)
    rw [hnone, List.nil_append] at hdecode
    rw [runFrom, Run.performAll_append]
    exact hdecode
  · rw [bitCount_frameRecord, List.length_take, Nat.min_comm]

end Sys2Proof.Machine

/-! Proofs for `41_timeout.md`: TICK and READY in every state, the window over a trace, the frame between two clears, and what becomes of
a frame in a run, finite or infinite. -/

namespace Sys2Proof.Machine

-- TICK and READY (R120, R121).

theorem State.ready_iff {s : State} : s.ready = true ↔ s.fin = true ∧ 26 ≤ s.count := by
  rw [State.ready_eq, Bool.and_eq_true, decide_eq_true_eq]

/-- While the window runs, a TICK takes WD down by one and sets FIN exactly where it brings WD to 0 (R120). -/
theorem State.countDown_window {s : State} (hf : s.fin = false) (hwd : 1 ≤ s.wd) :
    s.countDown.wd + 1 = s.wd ∧ (s.countDown.fin = true ↔ s.wd = 1) := by
  rw [State.countDown_of_not_fin hf]
  refine ⟨Nat.sub_add_cancel hwd, (expired_iff _).trans ?_⟩
  omega

/-- Settles O13: with FIN = 1 the state is left; with FIN = 0 the window loses one tick. -/
theorem tickCountsTheWatchdogDown : Obligations.TickCountsTheWatchdogDown := by
  refine ⟨rfl, fun s hs => ⟨_, exec_tick s, ?_⟩⟩
  have hwindow (hf : s.fin = false) := State.countDown_window hf (hs.resolve_left (by simp [hf]))
  refine ⟨by simp, by simp, by simp, by simp, fun hf => ?_, hwindow, fun hf => ?_, by simp [Shows]⟩
  · simp [State.countDown_of_fin hf, hf]
  · obtain ⟨-, hfin⟩ := hwindow hf
    rw [State.ready_drive, State.ready_iff, hfin, State.countDown_count]

/-- The ports are no state element (R20, R70). -/
theorem SameBlock.drive (i : Instr) (r : Option Bool) (c : Option CardRecord) (pre s : State) :
    SameBlock s (State.drive i r c pre s) :=
  ⟨rfl, rfl, rfl, rfl, rfl, rfl⟩

/-- Settles O15: READY drives the ports over the state as it was, so the second one finds the level of the first. -/
theorem readyReturnsTheLevelAndWritesNothing : Obligations.ReadyReturnsTheLevelAndWritesNothing :=
  ⟨rfl, fun s => ⟨_, exec_ready s, SameBlock.drive .., ⟨rfl, rfl, rfl⟩, _, exec_ready _, SameBlock.drive .., ⟨rfl, rfl, rfl⟩⟩⟩

-- What the READY events of a run return (R121).

/-- Only READY drives a result, and it is the level of the state before it. -/
theorem result_of_exec_next {i : Instr} {s t : State} (h : exec i s = .next t) :
    t.out.bind (·.result) = if i = .ready then some s.ready else none := by
  cases i with
  | nop | pulse0 | pulse1 | tick | ready | reset => cases h; rfl
  | reserved => cases h
  | decode =>
    cases hs : s.snapshot with
    | error k => rw [exec_decode_of_error hs] at h; cases h
    | ok bits => rw [exec_decode_of_ok hs] at h; cases h; rfl

theorem Run.results_perform_of_next {r : Run} {i : Instr} {t : State} (hf : r.fault = none) (h : exec i r.state = .next t) :
    (r.perform i).results = r.results ++ (if i = .ready then some r.state.ready else none).toList := by
  rw [Run.perform_of_next hf h, Run.results, Run.results, List.filterMap_append, ← result_of_exec_next h]
  cases t.out with
  | none => rfl
  | some p => cases hp : p.result <;> simp [hp]

/-- Whatever the event and its outcome, a result it adds is the level of the state before it. -/
theorem Run.results_perform_subset (r : Run) (i : Instr) : (r.perform i).results ⊆ r.results ++ [r.state.ready] := by
  cases hf : r.fault with
  | some f => rw [Run.perform_of_some_fault hf]; exact List.subset_append_left ..
  | none =>
    obtain ⟨-, ho⟩ | ⟨t, ht, -⟩ := r.perform_cases i
    · rw [Run.results, ho]; exact List.subset_append_left ..
    · rw [Run.results_perform_of_next hf ht]
      split <;> simp

/-- Where every event of a trace keeps a property of states that are not ready, no READY of the trace returns 1. -/
theorem Run.results_performAll_of_not_ready {P : State → Prop} {tr : List Instr} (hnot : ∀ s, P s → s.ready = false)
    (keeps : ∀ i ∈ tr, ∀ s t : State, P s → exec i s = .next t → P t) :
    ∀ r : Run, P r.state → (∀ b ∈ r.results, b = false) → ∀ b ∈ (r.performAll tr).results, b = false := by
  induction tr with
  | nil => exact fun _ _ hres => hres
  | cons i tr ih =>
    intro r hr hres
    have keeps' := List.forall_mem_cons.mp keeps
    refine ih keeps'.2 (r.perform i) (Run.performAll_keeps_of_mem (tr := [i]) (by simpa using keeps'.1) r hr) fun b hb => ?_
    obtain hold | hnew := List.mem_append.mp (r.results_perform_subset i hb)
    · exact hres b hold
    · rw [List.mem_singleton.mp hnew, hnot _ hr]

theorem runFrom_never_ready {P : State → Prop} {tr : List Instr} (hnot : ∀ s, P s → s.ready = false)
    (keeps : ∀ i ∈ tr, ∀ s t : State, P s → exec i s = .next t → P t) {s : State} (hs : P s) :
    (runFrom s tr).state.ready = false ∧ ∀ b ∈ (runFrom s tr).results, b = false :=
  ⟨hnot _ (Run.performAll_keeps_of_mem keeps (Run.start s) hs),
    Run.results_performAll_of_not_ready hnot keeps (Run.start s) hs nofun⟩

-- A short frame (R123).

theorem State.not_ready_of_short {s : State} (h : s.count < 26) : s.ready = false := by
  simp [State.ready_eq, Nat.not_le.mpr h]

/-- The same COUNT and the same cells. -/
def SameFrame (s t : State) : Prop := t.count = s.count ∧ t.buf = s.buf

theorem SameFrame.of_exec_next_quiet {s t u : State} {i : Instr} (h : SameFrame s t) (hi : isQuiet i = true)
    (he : exec i t = .next u) : SameFrame s u := by
  obtain ⟨hc, hb⟩ := h
  obtain ⟨hc', hb', -⟩ := dropped_of_quiet hi he
  exact ⟨hc'.trans hc, hb'.trans hb⟩

/-- Settles O41: a quiet trace keeps the frame, which is too short to be ready, and R8 leaves room for its next bit. -/
theorem shortFrameNeverBecomesReady : Obligations.ShortFrameNeverBecomesReady := by
  intro s tr hshort hq
  have keeps : ∀ i ∈ tr, ∀ t u : State, SameFrame s t → exec i t = .next u → SameFrame s u :=
    fun i hi _ _ h he => h.of_exec_next_quiet (hq i hi) he
  obtain ⟨hready, hres⟩ := runFrom_never_ready (P := SameFrame s)
    (fun t h => State.not_ready_of_short (by rw [h.1]; exact hshort)) keeps ⟨rfl, rfl⟩
  obtain ⟨hcount, hbuf⟩ : SameFrame s (runFrom s tr).state := Run.performAll_keeps_of_mem keeps (Run.start s) ⟨rfl, rfl⟩
  refine ⟨hready, hres, hcount, hbuf, fun hcfg b => ?_⟩
  obtain ⟨hcap, -, -⟩ := Config.limits_of_wellFormed hcfg
  obtain ⟨t, ht, happended, -⟩ := exec_pulseOf_effect b (runFrom s tr).state
  obtain ⟨hcount', hbit, hcells, -⟩ := happended (by rw [runFrom_cfg]; omega)
  rw [hcount] at hcount' hbit hcells
  rw [hbuf] at hcells
  exact ⟨t, ht, hcount', hbit, hcells⟩

-- The window after a pulse (R124).

theorem isPulse_iff {i : Instr} : isPulse i = true ↔ ∃ b, i = pulseOf b := by
  constructor
  · intro h
    cases i with
    | pulse0 => exact ⟨false, rfl⟩
    | pulse1 => exact ⟨true, rfl⟩
    | nop | tick | ready | decode | reserved | reset => cases h
  · rintro ⟨b, rfl⟩
    cases b <;> rfl

/-- No pulse shortens a frame (R100, R103). -/
theorem count_le_capture (b : Bool) (s : State) : s.count ≤ (s.capture b).count := by
  rcases Nat.lt_or_ge s.count s.cfg.cap with hlt | hge
  · rw [State.capture_of_lt b hlt]; exact Nat.le_succ _
  · rw [State.capture_of_ge b hge]; exact Nat.le_refl _

theorem not_ready_of_activity_or_clear {i : Instr} {s t : State} (hi : isPulse i = true ∨ clearsFrame i = true)
    (he : exec i s = .next t) : t.ready = false := by
  obtain ⟨hnr, -⟩ | ⟨b, -, rfl⟩ | ⟨rfl, -⟩ | ⟨-, _, -, rfl⟩ | ⟨-, rfl⟩ := exec_next_cases he
  · rcases hnr with rfl | rfl <;> simp [isPulse, clearsFrame] at hi
  · exact State.ready_capture b s
  · simp [isPulse, clearsFrame] at hi
  · exact State.ready_clearFrame s
  · exact State.ready_resetBlock s

/-- After a pulse that leaves 26 bits or more, a quiet trace ends the window by T_WAIT ticks and no fewer. -/
theorem Inv.ready_runFrom_after_pulse {b : Bool} {s t : State} (h : Inv s) (he : exec (pulseOf b) s = .next t)
    (hlen : 26 ≤ t.count) {tr : List Instr} (hq : ∀ i ∈ tr, isQuiet i = true) :
    (runFrom t tr).state.ready = decide (t.cfg.tWait ≤ tickCount tr) := by
  have hwd : t.wd = t.cfg.tWait := by
    cases (exec_pulseOf b s).symm.trans he
    simp
  rw [(h.of_exec_next he).ready_runFrom_quiet hlen hq, hwd]

/-- Settles O42: the pulse opens a window of T_WAIT ticks, and so does the next pulse, on a frame no shorter. -/
theorem readyRisesAfterExactlyTheWindow : Obligations.ReadyRisesAfterExactlyTheWindow := by
  intro b s0 s tr h he hlen hq
  have hinv := h.of_exec_next he
  refine ⟨h.ready_runFrom_after_pulse he hlen hq, fun i t => not_ready_of_activity_or_clear, fun i t hi ht more hmore => ?_⟩
  obtain ⟨b', rfl⟩ := isPulse_iff.mp hi
  obtain ⟨hcount, -⟩ := Run.performAll_quiet tr (r := Run.start s) hinv rfl hq
  have hlen' : 26 ≤ t.count := by
    cases (exec_pulseOf b' _).symm.trans ht
    exact (hlen.trans_eq hcount.symm).trans (count_le_capture b' _)
  have hcfg : t.cfg = s.cfg := (cfg_of_exec_next ht).trans (runFrom_cfg s tr)
  rw [← hcfg]
  exact (inv_runFrom hinv tr).ready_runFrom_after_pulse ht hlen' hmore

-- The timestamp (R125).

theorem runFrom_append (s : State) (xs ys : List Instr) : runFrom s (xs ++ ys) = (runFrom s xs).performAll ys :=
  Run.performAll_append (Run.start s) xs ys

theorem runFrom_concat (s : State) (tr : List Instr) (i : Instr) : runFrom s (tr ++ [i]) = (runFrom s tr).perform i :=
  runFrom_append s tr [i]

theorem Inv.fault_runFrom {s : State} (h : Inv s) (tr : List Instr) : (runFrom s tr).fault = none :=
  Run.performAll_fault_of_inv tr h rfl

theorem ticksSincePulse_concat_pulse (tr : List Instr) (b : Bool) : ticksSincePulse (tr ++ [pulseOf b]) = some 0 := by
  cases b <;> simp [ticksSincePulse, pulseOf]

theorem ticksSincePulse_concat_tick (tr : List Instr) :
    ticksSincePulse (tr ++ [.tick]) = (ticksSincePulse tr).map (· + 1) := by
  simp [ticksSincePulse]

theorem ticksSincePulse_concat_reset (tr : List Instr) : ticksSincePulse (tr ++ [.reset]) = none := by
  simp [ticksSincePulse]

theorem ticksSincePulse_concat_of_ne {i : Instr} (hp : isPulse i = false) (ht : i ≠ .tick) (hr : i ≠ .reset) (tr : List Instr) :
    ticksSincePulse (tr ++ [i]) = ticksSincePulse tr := by
  cases i with
  | pulse0 | pulse1 => cases hp
  | tick => exact absurd rfl ht
  | reset => exact absurd rfl hr
  | nop | ready | decode | reserved => simp [ticksSincePulse]

/-- The events by what they do to the watchdog: a pulse loads it, TICK counts it down, RESET idles it, the others leave it (R20). -/
theorem watchdog_event_cases (i : Instr) :
    (∃ b, i = pulseOf b) ∨ i = .tick ∨ i = .reset ∨ (isPulse i = false ∧ i ≠ .tick ∧ i ≠ .reset) := by
  cases i with
  | pulse0 | pulse1 => exact .inl (isPulse_iff.mp rfl)
  | tick => exact .inr (.inl rfl)
  | reset => exact .inr (.inr (.inl rfl))
  | nop | ready | decode | reserved => exact .inr (.inr (.inr ⟨rfl, nofun, nofun⟩))

theorem Run.wd_perform_of_ne {i : Instr} (hp : isPulse i = false) (ht : i ≠ .tick) (hr : i ≠ .reset) (r : Run) :
    (r.perform i).state.wd = r.state.wd := by
  obtain ⟨hs, -⟩ | ⟨t, he, hperform⟩ := r.perform_cases i
  · rw [hs]
  · obtain ⟨hwd, -⟩ := watchdog_of_exec_next hp ht hr he
    rw [hperform]
    exact hwd

theorem Run.wd_perform_tick {r : Run} (h : Inv r.state) (hf : r.fault = none) : (r.perform .tick).state.wd = r.state.wd - 1 := by
  rw [Run.perform_of_next hf (exec_tick _)]
  exact h.countDown_wd

/-- WD counts down from T_WAIT with the ticks since the last pulse, and stops at 0 (R125). -/
theorem Inv.wd_of_ticksSincePulse {s : State} (h : Inv s) (tr : List Instr) :
    ∀ d, ticksSincePulse tr = some d → (runFrom s tr).state.wd = s.cfg.tWait - d := by
  induction tr using List.reverseRecOn with
  | nil => exact nofun
  | append_singleton tr i ih =>
    intro d hd
    obtain ⟨b, rfl⟩ | rfl | rfl | ⟨hp, ht, hr⟩ := watchdog_event_cases i
    · obtain ⟨hwd, -⟩ := h.window_runFrom_concat_pulse tr b
      cases (ticksSincePulse_concat_pulse tr b).symm.trans hd
      exact hwd
    · rw [ticksSincePulse_concat_tick] at hd
      obtain ⟨e, he, rfl⟩ := Option.map_eq_some_iff.mp hd
      rw [runFrom_concat, Run.wd_perform_tick (inv_runFrom h tr) (h.fault_runFrom tr), ih e he, Nat.sub_sub]
    · rw [ticksSincePulse_concat_reset] at hd
      cases hd
    · rw [ticksSincePulse_concat_of_ne hp ht hr] at hd
      rw [runFrom_concat, Run.wd_perform_of_ne hp ht hr, ih d hd]

/-- Settles O43: WD is what is left of the window, and by INV2 FIN is 1 exactly where nothing is. -/
theorem watchdogAgreesWithTheTimestamp : Obligations.WatchdogAgreesWithTheTimestamp := by
  intro c tr d hc hd
  have hinv := inv_powerOn hc []
  have hwd := hinv.wd_of_ticksSincePulse tr d hd
  rw [State.powerOn_cfg] at hwd
  have hfin : (runFrom (State.powerOn c []) tr).state.fin = true ↔ c.tWait ≤ d :=
    (inv_runFrom hinv tr).fin_iff.trans (by rw [hwd]; exact Nat.sub_eq_zero_iff_le)
  exact ⟨by rw [Bool.eq_iff_iff, hfin, decide_eq_true_eq], hwd, by rw [State.ready_iff, hfin]⟩

-- Without TICK events (R127).

/-- A window that is not running ended before the frame began: FIN = 1 only with COUNT = 0. -/
def IdleOnlyWhenEmpty (s : State) : Prop := s.fin = true → s.count = 0

theorem IdleOnlyWhenEmpty.not_ready {s : State} (h : IdleOnlyWhenEmpty s) : s.ready = false := by
  cases hf : s.fin with
  | false => simp [State.ready_eq, hf]
  | true => exact State.not_ready_of_short (by rw [h hf]; decide)

theorem IdleOnlyWhenEmpty.of_exec_next {i : Instr} {s t : State} (h : IdleOnlyWhenEmpty s) (hi : i ≠ .tick)
    (he : exec i s = .next t) : IdleOnlyWhenEmpty t := by
  obtain ⟨-, _, rfl⟩ | ⟨b, -, rfl⟩ | ⟨htick, -⟩ | ⟨-, _, -, rfl⟩ | ⟨-, rfl⟩ := exec_next_cases he
  · exact h
  · intro hf
    simp at hf
  · exact absurd htick hi
  · exact fun _ => rfl
  · exact fun _ => rfl

/-- Of all events only TICK and RESET can set FIN (R20). -/
theorem fin_eq_false_of_exec_next {i : Instr} {s t : State} (hs : s.fin = false) (ht : i ≠ .tick) (hr : i ≠ .reset)
    (he : exec i s = .next t) : t.fin = false := by
  obtain ⟨b, rfl⟩ | htick | hreset | ⟨hp, -⟩ := watchdog_event_cases i
  · cases (exec_pulseOf b s).symm.trans he
    exact State.capture_fin b s
  · exact absurd htick ht
  · exact absurd hreset hr
  · obtain ⟨-, hf⟩ := watchdog_of_exec_next hp ht hr he
    exact hf.trans hs

/-- Settles O44: without a TICK, FIN = 1 is left over from reset, where the frame is empty; without a RESET either, nothing sets FIN. -/
theorem withoutTicksNothingBecomesReady : Obligations.WithoutTicksNothingBecomesReady := by
  refine ⟨fun c tr hno => ?_, fun s tr hs hno => ?_⟩
  · exact runFrom_never_ready (P := IdleOnlyWhenEmpty) (fun _ h => h.not_ready)
      (fun i hi _ _ h he => h.of_exec_next (hno i hi) he) fun _ => rfl
  · exact Run.performAll_keeps_of_mem (P := fun t => t.fin = false)
      (fun i hi _ _ ht he => fin_eq_false_of_exec_next ht (hno i hi).1 (hno i hi).2 he) (Run.start s) hs

-- The frame between two clears (R122).

theorem Run.cfg_perform (r : Run) (i : Instr) : (r.perform i).state.cfg = r.state.cfg := by
  obtain ⟨hs, -⟩ | ⟨t, he, hperform⟩ := r.perform_cases i
  · rw [hs]
  · rw [hperform]; exact cfg_of_exec_next he

theorem pulseBits_cons (i : Instr) (tr : List Instr) : pulseBits (i :: tr) = pulseBits [i] ++ pulseBits tr :=
  List.filterMap_append (l := [i])

theorem pulseBits_pulseOf (b : Bool) : pulseBits [pulseOf b] = [b] := by
  cases b <;> rfl

theorem pulseBits_of_not_pulse {i : Instr} (hi : isPulse i = false) : pulseBits [i] = [] := by
  cases i with
  | pulse0 | pulse1 => cases hi
  | nop | tick | ready | decode | reserved | reset => rfl

/-- A frame is never cut at capacity again (INV1). -/
theorem Inv.take_frame {s : State} {bits : List Bool} (h : Inv s) (hs : s.snapshot = .ok bits) : bits.take s.cfg.cap = bits :=
  List.take_of_length_le ((State.length_of_snapshot hs).trans_le h.count_le)

/-- An event that does not clear the frame adds the bit it carries, if any, up to capacity. -/
theorem Run.snapshot_perform {r : Run} {i : Instr} {bits : List Bool} (h : Inv r.state) (hf : r.fault = none)
    (hi : clearsFrame i = false) (hs : r.state.snapshot = .ok bits) :
    (r.perform i).state.snapshot = .ok ((bits ++ pulseBits [i]).take r.state.cfg.cap) := by
  by_cases hp : isPulse i = true
  · obtain ⟨b, rfl⟩ := isPulse_iff.mp hp
    rw [Run.perform_of_next hf (exec_pulseOf b _), pulseBits_pulseOf]
    exact snapshot_capture hs h.count_le b
  · have hp' : isPulse i = false := by simpa using hp
    rw [pulseBits_of_not_pulse hp', List.append_nil, h.take_frame hs]
    obtain ⟨hsame, -⟩ | ⟨t, he, hperform⟩ := r.perform_cases i
    · rwa [hsame]
    · obtain ⟨hcount, hbuf, -⟩ | ⟨rfl | rfl, -⟩ := frame_of_exec_next hp' he
      · rw [hperform]
        exact (State.snapshot_congr hbuf hcount).trans hs
      · cases hi
      · cases hi

/-- A clear leaves an empty frame behind (R151, R181). -/
theorem Run.snapshot_perform_clear {r : Run} {i : Instr} (h : Inv r.state) (hf : r.fault = none) (hi : clearsFrame i = true) :
    (r.perform i).state.snapshot = .ok [] := by
  cases i with
  | decode =>
    obtain ⟨bits, hs⟩ := h.snapshot
    rw [Run.perform_of_next hf (exec_decode_of_ok hs)]
    exact State.snapshot_clearFrame r.state
  | reset =>
    rw [Run.perform_of_next hf (exec_reset _)]
    exact State.snapshot_resetBlock r.state
  | nop | pulse0 | pulse1 | tick | ready | reserved => cases hi

/-- A trace without a clear adds the bits of its pulses to the frame, the first of them up to capacity. -/
theorem Run.snapshot_performAll {tr : List Instr} (hno : ∀ i ∈ tr, clearsFrame i = false) : ∀ {r : Run} {bits : List Bool},
    Inv r.state → r.fault = none → r.state.snapshot = .ok bits →
    (r.performAll tr).state.snapshot = .ok ((bits ++ pulseBits tr).take r.state.cfg.cap) := by
  induction tr with
  | nil =>
    intro r bits h _ hs
    rw [pulseBits, List.filterMap_nil, List.append_nil, h.take_frame hs]
    exact hs
  | cons i tr ih =>
    intro r bits h hf hs
    obtain ⟨hi, hno'⟩ := List.forall_mem_cons.mp hno
    rw [Run.performAll_cons, ih hno' (Run.perform_inv h i) (Run.perform_fault_of_inv h hf i) (Run.snapshot_perform h hf hi hs),
      Run.cfg_perform, take_append_take, List.append_assoc, ← pulseBits_cons]

/-- Settles O49: the clear leaves an empty frame, the events after it add their pulses' bits, and the DECODE emits that frame's record. -/
theorem frameIsTheBitsSinceTheLastClear : Obligations.FrameIsTheBitsSinceTheLastClear := by
  intro c before after clear hc hclear hno
  have hinv := inv_powerOn hc []
  have hcleared := inv_runFrom hinv (before ++ [clear])
  have hempty : (runFrom (State.powerOn c []) (before ++ [clear])).state.snapshot = .ok [] := by
    rw [runFrom_concat]
    exact Run.snapshot_perform_clear (inv_runFrom hinv before) (hinv.fault_runFrom before) hclear
  have hframe := Run.snapshot_performAll hno hcleared (hinv.fault_runFrom _) hempty
  rw [runFrom_cfg, List.nil_append, State.powerOn_cfg, ← runFrom_append] at hframe
  have hcards : (runFrom (State.powerOn c []) (before ++ [clear] ++ after)).cards =
      (runFrom (State.powerOn c []) (before ++ [clear])).cards := by
    rw [runFrom_append]
    exact Run.cards_performAll_of_no_decode (fun i hi hd => by rw [hd] at hi; cases hno _ hi) _
  rw [runFrom_concat, Run.cards_perform_decode (inv_runFrom hinv _) (hinv.fault_runFrom _) hframe, hcards]

-- A run from power-on line by line (R78): what it has reached and shown so far.

/-- The run `r` has nothing recorded against it and meets the invariant; its frame is `frame` and WD is `wd`; its READY events have
returned `results` and its DECODE events have driven `cards`. -/
structure Run.Reached (r : Run) (c : Config) (frame : List Bool) (wd : Nat) (results : List Bool) (cards : List CardRecord) :
    Prop where
  clean : r.clean
  inv : Inv r.state
  cfg_eq : r.state.cfg = c
  snapshot_eq : r.state.snapshot = .ok frame
  wd_eq : r.state.wd = wd
  results_eq : r.results = results
  cards_eq : r.cards = cards

theorem Run.reached_powerOn {c : Config} (hc : c.wellFormed = true) : (Run.start (State.powerOn c [])).Reached c [] 0 [] [] :=
  ⟨⟨rfl, rfl⟩, inv_powerOn hc [], rfl, rfl, rfl, rfl, rfl⟩

section
variable {r : Run} {c : Config} {frame : List Bool} {wd : Nat} {results : List Bool} {cards : List CardRecord}

/-- INV2 puts the level `ready` in terms of WD. -/
theorem Run.Reached.ready_eq (h : r.Reached c frame wd results cards) :
    r.state.ready = decide (wd = 0 ∧ 26 ≤ frame.length) := by
  rw [Bool.eq_iff_iff, State.ready_iff, h.inv.fin_iff, h.wd_eq, State.length_of_snapshot h.snapshot_eq, decide_eq_true_eq]

/-- An event that answers a next state: what it does to the frame, to WD and to the records is still to be said. -/
theorem Run.Reached.perform {i : Instr} {t : State} {frame' : List Bool} {wd' : Nat} {cards' : List CardRecord}
    (h : r.Reached c frame wd results cards) (he : exec i r.state = .next t) (hs : t.snapshot = .ok frame') (hw : t.wd = wd')
    (hcards : (r.perform i).cards = cards') :
    (r.perform i).Reached c frame' wd' (results ++ (if i = .ready then some r.state.ready else none).toList) cards' := by
  obtain ⟨hr, hf⟩ := h.clean
  have hres := Run.results_perform_of_next hf he
  rw [h.results_eq] at hres
  rw [Run.perform_of_next hf he] at hres hcards ⊢
  exact ⟨⟨hr, hf⟩, h.inv.of_exec_next he, (cfg_of_exec_next he).trans h.cfg_eq, hs, hw, hres, hcards⟩

theorem Run.Reached.pulse (h : r.Reached c frame wd results cards) (b : Bool) :
    (r.perform (pulseOf b)).Reached c ((frame ++ [b]).take c.cap) c.tWait results cards := by
  have hs := snapshot_capture h.snapshot_eq h.inv.count_le b
  have hw := State.capture_wd b r.state
  rw [h.cfg_eq] at hs hw
  have hcards := (Run.cards_perform_of_ne_decode (i := pulseOf b) (by cases b <;> decide) r).trans h.cards_eq
  have hstep := h.perform (exec_pulseOf b r.state) hs hw hcards
  rwa [if_neg (by cases b <;> decide), Option.toList_none, List.append_nil] at hstep

theorem Run.Reached.tick (h : r.Reached c frame wd results cards) : (r.perform .tick).Reached c frame (wd - 1) results cards := by
  have hs : r.state.countDown.snapshot = .ok frame :=
    (State.snapshot_congr (State.countDown_buf _) (State.countDown_count _)).trans h.snapshot_eq
  have hw : r.state.countDown.wd = wd - 1 := by rw [h.inv.countDown_wd, h.wd_eq]
  have hcards := (Run.cards_perform_of_ne_decode (i := .tick) (by decide) r).trans h.cards_eq
  simpa using h.perform (exec_tick r.state) hs hw hcards

theorem Run.Reached.ready (h : r.Reached c frame wd results cards) :
    (r.perform .ready).Reached c frame wd (results ++ [decide (wd = 0 ∧ 26 ≤ frame.length)]) cards := by
  have hcards := (Run.cards_perform_of_ne_decode (i := .ready) (by decide) r).trans h.cards_eq
  simpa [h.ready_eq] using h.perform (exec_ready r.state) h.snapshot_eq h.wd_eq hcards

theorem Run.Reached.decode (h : r.Reached c frame wd results cards) :
    (r.perform .decode).Reached c [] wd results (cards ++ [frameRecord frame]) := by
  have hcards := Run.cards_perform_decode h.inv h.clean.2 h.snapshot_eq
  rw [h.cards_eq] at hcards
  simpa using h.perform (exec_decode_of_ok h.snapshot_eq) (State.snapshot_clearFrame r.state) h.wd_eq hcards

theorem Run.Reached.send (h : r.Reached c frame wd results cards) (bits : List Bool) :
    (r.performItem (.send bits)).Reached c ((frame ++ bits).take c.cap) (if bits = [] then wd else c.tWait) results cards := by
  show (r.performAll (bits.map pulseOf)).Reached ..
  induction bits generalizing r frame wd with
  | nil =>
    have hfits := h.inv.take_frame h.snapshot_eq
    rw [h.cfg_eq] at hfits
    simpa [hfits] using h
  | cons b bits ih =>
    have hrest := ih (h.pulse b)
    rw [ite_self, take_append_take, List.append_assoc] at hrest
    exact hrest

theorem Run.Reached.ticks (h : r.Reached c frame wd results cards) (n : Nat) :
    (r.performItem (.ticks n)).Reached c frame (wd - n) results cards := by
  show (r.performAll (List.replicate n .tick)).Reached ..
  induction n generalizing r wd with
  | zero => exact h
  | succ n ih =>
    rw [List.replicate_succ, Run.performAll_cons, Nat.add_comm, ← Nat.sub_sub]
    exact ih h.tick

/-- WAIT is T_WAIT ticks, which use up any window (R78, INV3). -/
theorem Run.Reached.wait (h : r.Reached c frame wd results cards) : (r.performItem .wait).Reached c frame 0 results cards := by
  have hwait : r.performItem .wait = r.performItem (.ticks c.tWait) := by rw [← h.cfg_eq]; rfl
  have hwd : wd - c.tWait = 0 := Nat.sub_eq_zero_of_le (by rw [← h.wd_eq, ← h.cfg_eq]; exact h.inv.wd_le)
  rw [hwait, ← hwd]
  exact h.ticks c.tWait

/-- POLL's test is the level that its TICK leaves (R78). -/
theorem Run.Reached.ready_countDown (h : r.Reached c frame wd results cards) :
    r.state.countDown.ready = decide (wd ≤ 1 ∧ 26 ≤ frame.length) := by
  have hlevel := h.tick.ready_eq
  rw [Run.perform_of_next h.clean.2 (exec_tick r.state)] at hlevel
  simpa only [Nat.sub_eq_zero_iff_le, State.ready_drive] using hlevel

theorem Run.Reached.poll_of_ready (h : r.Reached c frame wd results cards) (hwd : wd ≤ 1) (hlen : 26 ≤ frame.length) :
    (r.performItem .poll).Reached c [] 0 (results ++ [true]) (cards ++ [frameRecord frame]) := by
  have hexpand := TraceItem.expand_poll_of_ready (h.ready_countDown.trans (decide_eq_true ⟨hwd, hlen⟩))
  have hdone := h.tick.ready.decode
  rw [Nat.sub_eq_zero_of_le hwd, decide_eq_true ⟨rfl, hlen⟩] at hdone
  rw [Run.performItem, hexpand]
  exact hdone

theorem Run.Reached.poll_of_not_ready (h : r.Reached c frame wd results cards) (hnot : ¬ (wd ≤ 1 ∧ 26 ≤ frame.length)) :
    (r.performItem .poll).Reached c frame (wd - 1) (results ++ [false]) cards := by
  have hexpand := TraceItem.expand_poll_of_not_ready (h.ready_countDown.trans (decide_eq_false hnot))
  have hdone := h.tick.ready
  simp only [Nat.sub_eq_zero_iff_le, decide_eq_false hnot] at hdone
  rw [Run.performItem, hexpand]
  exact hdone

end

/-- Settles O50: after the card WD is T_WAIT >= 1, so it is not ready; WAIT takes WD to 0; the first POLL decodes the card, and leaves a
frame too short for the second. -/
theorem oneCardIsDecodedOnce : Obligations.OneCardIsDecodedOnce := by
  intro c bits hc hl r
  obtain ⟨hcap, htw, -⟩ := Config.limits_of_wellFormed hc
  have hsent := (Run.reached_powerOn hc).send bits
  have hne : bits ≠ [] := by rintro rfl; cases hl
  rw [List.nil_append, List.take_of_length_le (by omega), if_neg hne] at hsent
  have hready := hsent.ready.wait.ready
  rw [decide_eq_false (by omega), decide_eq_true ⟨rfl, hl.ge⟩] at hready
  have hpolled : r.Reached .. := (hready.poll_of_ready (by decide) hl.ge).poll_of_not_ready (by decide)
  exact ⟨hpolled.clean, hpolled.results_eq, hpolled.cards_eq⟩

-- A frame left alone in an infinite run (R127, D30).

theorem inv_runAfter {s : State} (h : Inv s) (tr : Nat → Instr) (n : Nat) : Inv (runAfter s tr n).state := by
  induction n with
  | zero => exact h
  | succ n ih => exact Run.perform_inv ih (tr n)

theorem fault_runAfter {s : State} (h : Inv s) (tr : Nat → Instr) (n : Nat) : (runAfter s tr n).fault = none := by
  induction n with
  | zero => rfl
  | succ n ih => exact Run.perform_fault_of_inv (inv_runAfter h tr n) ih (tr n)

/-- Before the next DECODE a trace that leaves the frame alone has neither a pulse nor a clear. -/
theorem UndisturbedFrom.leaves_frame {tr : Nat → Instr} {n m : Nat} (h : UndisturbedFrom tr n) (hm : n ≤ m)
    (hno : ∀ k, n ≤ k → k ≤ m → tr k ≠ .decode) : isPulse (tr m) = false ∧ clearsFrame (tr m) = false := by
  obtain ⟨hp, hr⟩ := h m hm hno
  have hd := hno m hm (Nat.le_refl m)
  refine ⟨hp, ?_⟩
  cases hi : tr m with
  | decode => exact absurd hi hd
  | reset => exact absurd hi hr
  | nop | pulse0 | pulse1 | tick | ready | reserved => rfl

theorem Run.snapshot_perform_of_left {r : Run} {i : Instr} {bits : List Bool} (h : Inv r.state) (hf : r.fault = none)
    (hp : isPulse i = false) (hi : clearsFrame i = false) (hs : r.state.snapshot = .ok bits) :
    (r.perform i).state.snapshot = .ok bits := by
  rw [Run.snapshot_perform h hf hi hs, pulseBits_of_not_pulse hp, List.append_nil, h.take_frame hs]

/-- A frame left alone from step `n` on is there until the next DECODE. -/
theorem UndisturbedFrom.snapshot_runAfter {s : State} {tr : Nat → Instr} {n m : Nat} {bits : List Bool}
    (hu : UndisturbedFrom tr n) (h : Inv s) (hs : (runAfter s tr n).state.snapshot = .ok bits) (hm : n ≤ m)
    (hno : ∀ k, n ≤ k → k < m → tr k ≠ .decode) : (runAfter s tr m).state.snapshot = .ok bits := by
  induction m, hm using Nat.le_induction with
  | base => exact hs
  | succ m hm ih =>
    obtain ⟨hp, hc⟩ := hu.leaves_frame hm fun k hk hkm => hno k hk (Nat.lt_succ_of_le hkm)
    exact Run.snapshot_perform_of_left (inv_runAfter h tr m) (fault_runAfter h tr m) hp hc
      (ih fun k hk hkm => hno k hk (Nat.lt_succ_of_lt hkm))

/-- What a DECODE step of an infinite run shows, and that it clears the frame. -/
theorem observedAt_decode {s : State} {tr : Nat → Instr} {m : Nat} {bits : List Bool} (h : Inv s) (hd : tr m = .decode)
    (hs : (runAfter s tr m).state.snapshot = .ok bits) :
    observedAt s tr m = some ⟨.decode, (runAfter s tr m).state.ready, none, some (frameRecord bits)⟩ ∧
    (runAfter s tr (m + 1)).state.count = 0 := by
  have hf := fault_runAfter h tr m
  have he := exec_decode_of_ok hs
  rw [observedAt, runAfter_succ, hd, Run.shows_of_next hf he, Run.perform_of_next hf he, State.drive_out,
    (inv_runAfter h tr m).cardRecord_eq hs]
  exact ⟨rfl, rfl⟩

/-- Where a DECODE comes at all, the first one decodes the frame that was left alone until then. -/
theorem UndisturbedFrom.first_decode {s : State} {tr : Nat → Instr} {n : Nat} {bits : List Bool} (hu : UndisturbedFrom tr n)
    (h : Inv s) (hs : (runAfter s tr n).state.snapshot = .ok bits) (hex : ∃ m, n ≤ m ∧ tr m = .decode) :
    ∃ m, n ≤ m ∧ tr m = .decode ∧ (∀ k, n ≤ k → k < m → tr k ≠ .decode) ∧
      observedAt s tr m = some ⟨.decode, (runAfter s tr m).state.ready, none, some (frameRecord bits)⟩ ∧
      (runAfter s tr (m + 1)).state.count = 0 := by
  obtain ⟨hm, hd⟩ := Nat.find_spec hex
  have hno : ∀ k, n ≤ k → k < Nat.find hex → tr k ≠ .decode := fun k hk hlt hk' => Nat.find_min hex hlt ⟨hk, hk'⟩
  exact ⟨Nat.find hex, hm, hd, hno, observedAt_decode h hd (hu.snapshot_runAfter h hs hm hno)⟩

/-- A count that never rises and goes down again and again is 0 from some time on: at its least it can only go down if it is 0. -/
theorem eventually_zero_of_drops {w : Nat → Nat} (hanti : Antitone w) (hdrop : ∀ k, ∃ m, k ≤ m ∧ w (m + 1) = w m - 1) :
    ∃ k, ∀ m, k ≤ m → w m = 0 := by
  obtain ⟨k, hk⟩ : ∃ k, ∀ m, w k ≤ w m := ⟨Function.argmin w, fun m => Function.argmin_le w m⟩
  obtain ⟨m, hkm, hm⟩ := hdrop k
  have hleast := hk (m + 1)
  have hle := hanti hkm
  refine ⟨k, fun j hj => ?_⟩
  have hle' := hanti hj
  omega

/-- WD rises at a pulse only. -/
theorem Run.wd_perform_le {r : Run} {i : Instr} (h : Inv r.state) (hf : r.fault = none) (hp : isPulse i = false) :
    (r.perform i).state.wd ≤ r.state.wd := by
  obtain ⟨b, rfl⟩ | rfl | rfl | ⟨-, ht, hr⟩ := watchdog_event_cases i
  · cases b <;> cases hp
  · rw [Run.wd_perform_tick h hf]
    exact Nat.sub_le ..
  · rw [Run.perform_of_next hf (exec_reset _)]
    exact Nat.zero_le _
  · exact (Run.wd_perform_of_ne hp ht hr r).le

/-- A frame that is never disturbed and never decoded has its window used up some time, given ticks without end. -/
theorem UndisturbedFrom.window_ends {s : State} {tr : Nat → Instr} {n : Nat} (hu : UndisturbedFrom tr n) (h : Inv s)
    (hno : ∀ k, n ≤ k → tr k ≠ .decode) (hticks : ∀ k, ∃ m, k ≤ m ∧ tr m = .tick) :
    ∃ k, n ≤ k ∧ ∀ m, k ≤ m → (runAfter s tr m).state.fin = true := by
  have hanti : Antitone fun k => (runAfter s tr (n + k)).state.wd := antitone_nat_of_succ_le fun k =>
    Run.wd_perform_le (inv_runAfter h tr _) (fault_runAfter h tr _)
      (hu.leaves_frame (Nat.le_add_right n k) fun j hj _ => hno j hj).1
  obtain ⟨k, hk⟩ := eventually_zero_of_drops hanti fun k => by
    obtain ⟨m, hm, ht⟩ := hticks (n + k)
    obtain ⟨j, rfl⟩ := Nat.exists_eq_add_of_le ((Nat.le_add_right n k).trans hm)
    refine ⟨j, by omega, ?_⟩
    show (runAfter s tr (n + j + 1)).state.wd = _
    rw [runAfter_succ, ht, Run.wd_perform_tick (inv_runAfter h tr _) (fault_runAfter h tr _)]
  refine ⟨n + k, Nat.le_add_right n k, fun m hm => ?_⟩
  obtain ⟨j, rfl⟩ := Nat.exists_eq_add_of_le ((Nat.le_add_right n k).trans hm)
  exact (inv_runAfter h tr _).fin_iff.mpr (hk j (by omega))

/-- A consumer that decodes what stays ready decodes every frame of 26 bits or more that is left alone. -/
theorem PollingConsumer.exists_decode {s : State} {tr : Nat → Instr} {n : Nat} {bits : List Bool} (hc : PollingConsumer s tr n)
    (hu : UndisturbedFrom tr n) (h : Inv s) (hs : (runAfter s tr n).state.snapshot = .ok bits) (hlen : 26 ≤ bits.length) :
    ∃ m, n ≤ m ∧ tr m = .decode := by
  by_contra hnone
  have hno : ∀ k, n ≤ k → tr k ≠ .decode := fun k hk hd => hnone ⟨k, hk, hd⟩
  obtain ⟨k, hk, hfin⟩ := hu.window_ends h hno hc.ticks
  obtain ⟨m, hm, hd⟩ := hc.answers k hk fun m hm => by
    have hframe := hu.snapshot_runAfter h hs (hk.trans hm) fun j hj _ => hno j hj
    exact State.ready_iff.mpr ⟨hfin m hm, hlen.trans_eq (State.length_of_snapshot hframe)⟩
  exact hno m (hk.trans hm) hd

/-- Settles O38: either fairness brings a DECODE, and the first one finds the frame as it was left; D30's brings it outright, the polling
consumer's once the ticks have used up the window. -/
theorem fairConsumerDecodesEveryFrame : Obligations.FairConsumerDecodesEveryFrame := by
  intro s tr n bits h hu hs
  refine ⟨fun hfair => ?_, fun hpoll hlen => ?_⟩
  · obtain ⟨-, -, hex⟩ := hfair n
    obtain ⟨m, hm, hd, hfirst, hobs, hcount⟩ := hu.first_decode h hs hex
    exact ⟨m, _, hm, hd, hfirst, hobs, rfl, hcount⟩
  · obtain ⟨m, hm, hd, hfirst, hobs, -⟩ := hu.first_decode h hs (hpoll.exists_decode hu h hs hlen)
    exact ⟨m, _, hm, hd, hfirst, hobs, hpoll.onlyReady m hm hd, rfl⟩

end Sys2Proof.Machine

/-! Proofs for `42_decode.md`: DECODE's record by the rule's formulas and in closed form, its texts as numerals, and the one record of a
ready frame. -/

namespace Sys2Proof.Machine

-- The fields of the record as numbers (R143 to R148).

theorem fold_take_lt (bits : List Bool) (n : Nat) : fold (bits.take n) < 2 ^ n :=
  (fold_lt _).trans_le (Nat.pow_le_pow_right Nat.two_pos (List.length_take_le n bits))

/-- The facility code's 8 bits lose nothing of its slice (R143). -/
theorem toNat_facilityCode (bits : List Bool) : (facilityCode bits).toNat = fold ((bits.drop 1).take 8) := by
  rw [facilityCode, BitVec.toNat_ofNat]
  exact Nat.mod_eq_of_lt (fold_take_lt _ 8)

/-- The unique code's 16 bits lose nothing of its slice (R144). -/
theorem toNat_uniqueCode (bits : List Bool) : (uniqueCode bits).toNat = fold ((bits.drop 9).take 16) := by
  rw [uniqueCode, BitVec.toNat_ofNat]
  exact Nat.mod_eq_of_lt (fold_take_lt _ 16)

/-- `PRE[1:0]` is the two bits taken from ACC_A: the constant of R145 has none there. -/
theorem toNat_preamble_mod_four (a : Acc) :
    (preamble a).toNat % 4 = 2 * (a.getLsbD 21).toNat + (a.getLsbD 20).toNat := by
  have h1 := Bool.toNat_le (a.getLsbD 21)
  have h0 := Bool.toNat_le (a.getLsbD 20)
  rw [toNat_preamble]
  omega

theorem cardRecord_hexValue (bits : List Bool) (n : Nat) (a b : Acc) :
    (cardRecord bits n a b).hexValue = (cardRecord bits n a b).binaryDigits := by
  unfold cardRecord; split <;> rfl

-- DECODE (R141, R151).

/-- Settles O16: DECODE drives the record over the cleared frame, and its fields as numbers are R143 to R148's. -/
theorem decodeEmitsTheRecordAndClears : Obligations.DecodeEmitsTheRecordAndClears := by
  refine ⟨rfl, fun s bits hs => ⟨_, _, exec_decode_of_ok hs, ⟨rfl, rfl, rfl⟩, rfl, rfl, rfl, Memory.read_cleared, rfl, rfl, ?_, rfl,
    cardRecord_bitCount .., cardRecord_hexValue .., fun hc => ?_, fun hc => cardRecord_of_ne hc ..⟩⟩
  · rw [State.ready_drive, State.ready_clearFrame]
  · rw [hc, cardRecord_of_eq, recordOf]
    refine ⟨toNat_facilityCode bits, toNat_uniqueCode bits, ?_, ?_⟩
    · rw [toNat_compositeValue, toNat_preamble, toNat_cardData]
    · rw [toNat_binaryDigits, toNat_preamble_mod_four, toNat_cardData]

/-- Settles O17: under the invariant the snapshot answers, and no event but DECODE drives a record. -/
theorem decodeCompletesUnderTheInvariant : Obligations.DecodeCompletesUnderTheInvariant := by
  constructor
  · intro s hs
    obtain ⟨bits, hbits⟩ := hs.snapshot
    exact ⟨_, exec_decode_of_ok hbits, rfl⟩
  · intro i s t hi he
    obtain ⟨r, c, hout, hc⟩ := out_of_exec_next he
    simp [State.cardValid, hout, hc hi]

-- The binary text (R148): the bits of a 26-bit number, the most significant first.

/-- The `w` low bits of a number, the most significant first. -/
def bitsOfNat (w n : Nat) : List Bool := (List.range w).map fun k => n.testBit (w - 1 - k)

theorem bitsOfNat_succ (w n : Nat) : bitsOfNat (w + 1) n = bitsOfNat w (n / 2) ++ [n.testBit 0] := by
  rw [bitsOfNat, bitsOfNat, List.range_succ, List.map_append, List.map_singleton, Nat.add_sub_cancel, Nat.sub_self]
  congr 1
  refine List.map_congr_left fun k hk => ?_
  have hlt := List.mem_range.mp hk
  rw [← Nat.testBit_succ, show (w - 1 - k).succ = w - k by omega]

/-- The bits of a number, folded, are the number cut to that many bits (R10). -/
theorem fold_bitsOfNat (w : Nat) : ∀ n, fold (bitsOfNat w n) = n % 2 ^ w := by
  induction w with
  | zero => exact fun n => (Nat.mod_one n).symm
  | succ w ih =>
    intro n
    rw [bitsOfNat_succ, fold_append_single, ih, Nat.toNat_testBit, pow_succ', Nat.mod_mul, pow_zero, Nat.div_one, Nat.add_comm]

/-- The binary digits of a frame read as one number are the frame. -/
theorem digitsOf_fold (bits : List Bool) : digitsOf 2 bits.length (fold bits) = bits.map Bool.toNat := by
  induction bits using List.reverseRecOn with
  | nil => rfl
  | append_singleton bits b ih =>
    have hb := Bool.toNat_lt b
    have hdiv : (2 * fold bits + b.toNat) / 2 = fold bits := by omega
    have hmod : (2 * fold bits + b.toNat) % 2 = b.toNat := by omega
    rw [fold_append_single, List.length_append, List.length_singleton, digitsOf, hdiv, hmod, ih, List.map_append,
      List.map_singleton]

/-- The binary text of a number read from 26 bits is those bits (R153). -/
theorem binaryText_of_fold {v : BitVec 26} {bits : List Bool} (hl : bits.length = 26) (hv : v.toNat = fold bits) :
    binaryText v = bits.map (fun b => if b then '1' else '0') := by
  rw [binaryText, hv, ← hl, digitsOf_fold, List.map_map]
  exact List.map_congr_left fun b _ => lowerDigit_toNat b

theorem length_bitsOfNat (w n : Nat) : (bitsOfNat w n).length = w := by
  rw [bitsOfNat, List.length_map, List.length_range]

theorem binaryText_eq_map_bits (v : BitVec 26) :
    binaryText v = (bitsOfNat 26 v.toNat).map (fun b => if b then '1' else '0') :=
  binaryText_of_fold (length_bitsOfNat ..) (by rw [fold_bitsOfNat, Nat.mod_eq_of_lt v.isLt])

theorem binaryText_eq_map_range (v : BitVec 26) :
    binaryText v = (List.range 26).map (fun k => if v.getLsbD (25 - k) then '1' else '0') := by
  rw [binaryText_eq_map_bits, bitsOfNat, List.map_map]
  rfl

/-- The text folds to its number (R149). -/
theorem fold_binaryText (v : BitVec 26) : fold ((binaryText v).map (· == '1')) = v.toNat := by
  have hread : ((· == '1') ∘ fun b : Bool => if b then '1' else '0') = id := by
    funext b
    cases b <;> rfl
  rw [binaryText_eq_map_bits, List.map_map, hread, List.map_id, fold_bitsOfNat, Nat.mod_eq_of_lt v.isLt]

/-- BIN is the composite's low 26 bits (R147, R148). -/
theorem binaryDigits_eq_setWidth (pre : BitVec 20) (cd : BitVec 24) :
    binaryDigits pre cd = (compositeValue pre cd).setWidth 26 := by
  have hcd := cd.isLt
  apply BitVec.eq_of_toNat_eq
  rw [BitVec.toNat_setWidth, toNat_binaryDigits, toNat_compositeValue]
  omega

theorem cardRecord_binaryDigits (bits : List Bool) (n : Nat) (a b : Acc) :
    (cardRecord bits n a b).binaryDigits = (cardRecord bits n a b).compositeValue.setWidth 26 := by
  unfold cardRecord
  split <;> exact binaryDigits_eq_setWidth ..

/-- Settles O47: the text is the bits of BIN, which is the composite's low 26 bits and the hex value. -/
theorem binaryTextFoldsToTheHexValue : Obligations.BinaryTextFoldsToTheHexValue := by
  intro s t c he hc
  obtain ⟨bits, -, hc'⟩ := sampleCard_of_decode he
  cases hc'.symm.trans hc
  refine ⟨?_, fun ch hch => ?_, fun k hk => ?_, ?_⟩
  · rw [binaryText, List.length_map, length_digitsOf]
  · rw [binaryText_eq_map_bits] at hch
    obtain ⟨b, -, rfl⟩ := List.mem_map.mp hch
    cases b
    · exact .inl rfl
    · exact .inr rfl
  · have hbit : decide (25 - k < 26) = true := decide_eq_true (by omega)
    rw [binaryText_eq_map_range, List.getElem?_map, List.getElem?_range hk, Option.map_some, cardRecord_binaryDigits,
      BitVec.getLsbD_setWidth, hbit, Bool.true_and]
  · rw [fold_binaryText, cardRecord_hexValue]

-- Numerals (R150): digits without leading zeros.

theorem trimZeros_ne_nil (ds : List Nat) : trimZeros ds ≠ [] := by
  unfold trimZeros
  split <;> exact List.cons_ne_nil _ _

/-- Trimmed digits are `0` alone or begin with a digit that is not 0. -/
theorem trimZeros_cases (ds : List Nat) :
    trimZeros ds = [0] ∨ ∃ d rest, d ≠ 0 ∧ trimZeros ds = d :: rest := by
  induction ds with
  | nil => exact .inl rfl
  | cons d ds ih =>
    obtain rfl | hd := eq_or_ne d 0
    · rwa [trimZeros_zero_cons]
    · exact .inr ⟨d, ds, hd, trimZeros_cons_of_ne hd ds⟩

theorem trimZeros_of_head_zero {ds : List Nat} (h : (trimZeros ds).head? = some 0) : trimZeros ds = [0] := by
  obtain h0 | ⟨d, rest, hd, hr⟩ := trimZeros_cases ds
  · exact h0
  · rw [hr] at h
    exact absurd (Option.some.inj h) hd

theorem trimZeros_lt {base : Nat} (hb : 0 < base) {ds : List Nat} (h : ∀ d ∈ ds, d < base) : ∀ d ∈ trimZeros ds, d < base := by
  induction ds with
  | nil => exact List.forall_mem_singleton.mpr hb
  | cons d ds ih =>
    obtain rfl | hd := eq_or_ne d 0
    · rw [trimZeros_zero_cons]
      exact ih fun e he => h e (List.mem_cons_of_mem _ he)
    · rwa [trimZeros_cons_of_ne hd]

theorem foldl_trimZeros (base : Nat) (ds : List Nat) :
    (trimZeros ds).foldl (fun v d => base * v + d) 0 = ds.foldl (fun v d => base * v + d) 0 := by
  induction ds with
  | nil => rfl
  | cons d ds ih =>
    obtain rfl | hd := eq_or_ne d 0
    · rw [trimZeros_zero_cons, ih, List.foldl_cons]
      rfl
    · rw [trimZeros_cons_of_ne hd]

/-- Enough digits of a number, trimmed, are its numeral (R150, D12). -/
theorem numeral_trimZeros {base width n : Nat} (hb : 0 < base) (hn : n < base ^ width) :
    (∀ d ∈ trimZeros (digitsOf base width n), d < base) ∧ trimZeros (digitsOf base width n) ≠ [] ∧
    ((trimZeros (digitsOf base width n)).head? = some 0 → trimZeros (digitsOf base width n) = [0]) ∧
    (trimZeros (digitsOf base width n)).foldl (fun v d => base * v + d) 0 = n :=
  ⟨trimZeros_lt hb (digitsOf_lt hb width n), trimZeros_ne_nil _, trimZeros_of_head_zero, by
    rw [foldl_trimZeros, foldl_digitsOf, Nat.mod_eq_of_lt hn]⟩

/-- The proxmark text in terms of the composite as a number (R147, R150). -/
theorem proxmarkText_eq (v : BitVec 44) : proxmarkText v =
    (trimZeros (digitsOf 16 5 (v.toNat / 2 ^ 24)) ++ digitsOf 16 6 (v.toNat % 2 ^ 24)).map lowerDigit := by
  have hv : v.toNat / 2 ^ 24 < 2 ^ 20 := by have := v.isLt; omega
  rw [proxmarkText, BitVec.extractLsb'_toNat, BitVec.extractLsb'_toNat, Nat.shiftRight_eq_div_pow, Nat.shiftRight_zero,
    Nat.mod_eq_of_lt hv]

/-- Settles O48: each text is as many digits as its field can need, trimmed; CD's six are not. -/
theorem textsAreTheNumeralsOfTheFields : Obligations.TextsAreTheNumeralsOfTheFields := by
  intro c
  have hhex : c.hexValue.toNat < 16 ^ 7 := c.hexValue.isLt.trans (by decide)
  have hfc : c.facilityCode.toNat < 10 ^ 3 := c.facilityCode.isLt.trans (by decide)
  have huc : c.uniqueCode.toNat < 10 ^ 5 := c.uniqueCode.isLt.trans (by decide)
  have hpre : c.compositeValue.toNat / 2 ^ 24 < 16 ^ 5 := by have := c.compositeValue.isLt; omega
  obtain ⟨hlt, hne, hhead, hfold⟩ := numeral_trimZeros (by decide) hpre
  refine ⟨⟨_, renderCard_hexValue c, numeral_trimZeros (by decide) hhex⟩,
    ⟨_, renderCard_facilityCode c, numeral_trimZeros (by decide) hfc⟩,
    ⟨_, renderCard_uniqueCode c, numeral_trimZeros (by decide) huc⟩,
    ⟨_, _, (renderCard_proxmark c).trans (proxmarkText_eq _), ?_, hne, hhead, hfold, length_digitsOf .., ?_⟩,
    (renderCard_binaryValue c).trans (binaryText_eq_map_range _), by decide, by decide⟩
  · exact List.forall_mem_append.mpr ⟨hlt, digitsOf_lt (by decide) 6 _⟩
  · rw [foldl_digitsOf]
    exact Nat.mod_mod ..

-- The record in closed form, with its texts (R153, R154).

/-- `200` and a digit of 4 to 7: PRE's five digits, the first of them 0 (R145, R153). -/
theorem trimZeros_digits_preamble {k : Nat} (hk : k < 4) : trimZeros (digitsOf 16 5 (0x2004 + k)) = [2, 0, 0, 4 + k] := by
  interval_cases k <;> rfl

/-- The proxmark text of a 26-bit number on the constant of the composite (R153). -/
theorem proxmarkText_of_26_bits {v : Nat} (hv : v < 2 ^ 26) :
    proxmarkText (BitVec.ofNat 44 (0x2004000000 + v)) =
      ['2', '0', '0', lowerDigit (4 + v / 2 ^ 24)] ++ (digitsOf 16 6 (v % 2 ^ 24)).map lowerDigit := by
  have hnat : (BitVec.ofNat 44 (0x2004000000 + v)).toNat = 0x2004000000 + v := by
    rw [BitVec.toNat_ofNat]
    omega
  have hpre : (0x2004000000 + v) / 2 ^ 24 = 0x2004 + v / 2 ^ 24 := by omega
  have hcd : (0x2004000000 + v) % 2 ^ 24 = v % 2 ^ 24 := by omega
  rw [proxmarkText_eq, hnat, hpre, hcd, trimZeros_digits_preamble (by omega), List.map_append]
  rfl

/-- Settles O45: DECODE's record is the frame's in closed form, and the texts of the closed form are the frame's. -/
theorem recordOfA26BitFrameInClosedForm : Obligations.RecordOfA26BitFrameInClosedForm := by
  intro s t bits hinv hc hs he
  have hl : bits.length = 26 := (State.length_of_snapshot hs).trans hc
  have hV : fold bits < 2 ^ 26 := hl ▸ fold_lt bits
  have hcard : t.sampleCard = .next (frameRecord bits) := by
    cases (exec_decode_of_ok hs).symm.trans he
    rw [State.sampleCard_drive_some, hinv.cardRecord_eq hs]
  refine ⟨_, hcard, rfl, ?_, ?_⟩ <;> rw [frameRecord, if_pos hl]
  · exact binaryText_of_fold hl (BitVec.toNat_ofNat .. ▸ Nat.mod_eq_of_lt hV)
  · exact proxmarkText_of_26_bits hV

/-- Settles O46: the record of any other length is zero but for `bit_count`, and so are its texts. -/
theorem recordOfAnyOtherLengthIsZero : Obligations.RecordOfAnyOtherLengthIsZero := by
  intro s t hc he
  obtain ⟨bits, -, hcard⟩ := sampleCard_of_decode he
  rw [cardRecord_of_ne hc] at hcard
  refine ⟨_, hcard, rfl, ?_, ?_, ?_⟩
  · show binaryText 0 = _
    decide
  · show hexText 0 = _
    decide
  · show proxmarkText 0 = _
    decide

-- The polls of a frame (R152).

/-- A run from a state of the invariant, before its first event. -/
theorem Inv.reached_start {s : State} {bits : List Bool} (h : Inv s) (hs : s.snapshot = .ok bits) :
    (Run.start s).Reached s.cfg bits s.wd [] [] :=
  ⟨⟨rfl, rfl⟩, h, rfl, hs, rfl, rfl, rfl⟩

/-- Polls of a short frame return 0, one after another, and decode nothing (R123, R152). -/
theorem Run.Reached.polls_of_short {c : Config} {frame : List Bool} {cards : List CardRecord} (hlen : frame.length < 26) (n : Nat) :
    ∀ {r : Run} {wd : Nat} {results : List Bool}, r.Reached c frame wd results cards →
      (r.performItems (List.replicate n .poll)).Reached c frame (wd - n) (results ++ List.replicate n false) cards := by
  induction n with
  | zero =>
    intro r wd results h
    simpa [Run.performItems] using h
  | succ n ih =>
    intro r wd results h
    have hrest := ih (h.poll_of_not_ready fun hready => by omega)
    rw [List.append_assoc, Nat.sub_sub, Nat.add_comm] at hrest
    exact hrest

/-- Settles O54: the DECODE leaves an empty frame, which no poll finds ready; a poll of a ready frame ends with that DECODE. -/
theorem readyFrameIsDecodedExactlyOnce : Obligations.ReadyFrameIsDecodedExactlyOnce := by
  intro s hs
  obtain ⟨bits, hbits⟩ := hs.snapshot
  have he := exec_decode_of_ok hbits
  refine ⟨_, _, he, rfl, State.sampleCard_drive_some .., cardRecord_bitCount .., rfl, ?_, fun n => ?_, fun hready n => ?_⟩
  · rw [State.ready_drive, State.ready_clearFrame]
  · have hpolls := ((hs.of_exec_next he).reached_start (State.snapshot_clearFrame s)).polls_of_short (by decide) n
    exact ⟨hpolls.cards_eq, hpolls.results_eq⟩
  · obtain ⟨hfin, hlen⟩ := State.ready_iff.mp hready
    have hwd : s.wd ≤ 1 := (hs.fin_iff.mp hfin).le.trans zero_le_one
    have hfirst := (hs.reached_start hbits).poll_of_ready hwd (hlen.trans_eq (State.length_of_snapshot hbits).symm)
    rw [← hs.cardRecord_eq hbits] at hfirst
    have hpolls := hfirst.polls_of_short (by decide) n
    exact ⟨hpolls.cards_eq, hpolls.results_eq⟩

end Sys2Proof.Machine

/-! Proofs for `43_control.md`: NOP writes nothing, and RESET gives the reset configuration. -/

namespace Sys2Proof.Machine

/-- RESET's operation gives the reset configuration whatever the state held, and the ports are no state element (R20, R31, R181). -/
theorem ResetBlock.drive_resetBlock (i : Instr) (r : Option Bool) (c : Option CardRecord) (pre s : State) :
    ResetBlock (State.drive i r c pre s.resetBlock) :=
  ⟨rfl, Memory.read_cleared, rfl, rfl, rfl, rfl⟩

/-- The ports driven over a state that keeps the parameters and the rest of the trace are the step's interface (R70). -/
theorem Shows.drive {s t : State} (i : Instr) (r : Option Bool) (c : Option CardRecord) (hcfg : t.cfg = s.cfg)
    (hpending : t.pending = s.pending) : Shows i r c s (State.drive i r c s t) :=
  ⟨rfl, hcfg, hpending⟩

/-- `card_valid` is 1 exactly in a step that drives a record (R70). -/
theorem State.cardValid_drive (i : Instr) (r : Option Bool) (c : Option CardRecord) (pre s : State) :
    (State.drive i r c pre s).cardValid = c.isSome := rfl

/-- Settles O19: NOP drives the ports over the state as it was, and no record. -/
theorem nopChangesNothing : Obligations.NopChangesNothing :=
  ⟨decode_encode .nop, fun s =>
    ⟨_, exec_nop s, SameBlock.drive .., Shows.drive .nop none none rfl rfl, State.cardValid_drive ..⟩⟩

/-- Settles O20: RESET drives the ports over the reset configuration, and no record; the cleared frame is too short to be ready. -/
theorem resetEventGivesTheResetConfiguration : Obligations.ResetEventGivesTheResetConfiguration := by
  refine ⟨decode_encode .reset, fun s => ⟨_, exec_reset s, ResetBlock.drive_resetBlock .., State.cardValid_drive .., ?_, ?_⟩⟩
  · rw [State.ready_drive, State.ready_resetBlock]
  · exact Shows.drive .reset none none (State.resetBlock_cfg s) (State.resetBlock_pending s)

end Sys2Proof.Machine

/-! Proofs for `60_exceptions.md`: what a refusal and a fault leave of a run, the events that never stop the block, and a pulse beside a
DECODE or a TICK in either order. -/

namespace Sys2Proof.Machine

-- A refusal and a fault in a run (R203, log entry 8).

/-- A recorded refusal is kept, whatever the next event does (R203). -/
theorem Run.refusal_perform_of_some {r : Run} {why : Refusal} (h : r.refusal = some why) (i : Instr) :
    (r.perform i).refusal = some why := by
  cases hf : r.fault with
  | some f => rw [Run.perform_of_some_fault hf, h]
  | none =>
    cases he : exec i r.state with
    | next t => rw [Run.perform_of_next hf he, h]
    | refused why' => rw [Run.perform_of_refused hf he, h, Option.some_or]
    | fault f => rw [Run.perform_of_fault hf he, h]

theorem Run.refusal_performAll_of_some {why : Refusal} (tr : List Instr) : ∀ {r : Run}, r.refusal = some why →
    (r.performAll tr).refusal = some why := by
  induction tr with
  | nil => exact fun h => h
  | cons i tr ih => exact fun h => ih (Run.refusal_perform_of_some h i)

/-- Settles O23: the reserved code leaves some refusal recorded, its own or an earlier one, and every trace after it keeps that. -/
theorem refusalIsKeptAndLeavesTheState : Obligations.RefusalIsKeptAndLeavesTheState := by
  intro r hf
  have hp := Run.perform_of_refused hf (exec_reserved r.state)
  obtain ⟨why, hwhy⟩ : ∃ why, (r.perform .reserved).refusal = some why := by
    rw [hp]
    cases r.refusal with
    | none => exact ⟨_, rfl⟩
    | some why => exact ⟨why, rfl⟩
  refine ⟨by rw [hp], by rw [hwhy]; nofun, fun tr => ?_⟩
  rw [hwhy]
  exact Run.refusal_performAll_of_some tr hwhy

theorem Run.performAll_of_some_fault {r : Run} {f : Fault} (hf : r.fault = some f) (tr : List Instr) : r.performAll tr = r := by
  induction tr with
  | nil => rfl
  | cons i tr ih => rw [Run.performAll_cons, Run.perform_of_some_fault hf, ih]

/-- A step that answers no next state shows nothing. -/
theorem Run.observation_perform_of_no_next {r : Run} {i : Instr} (h : ∀ t, exec i r.state ≠ .next t) :
    (r.perform i).observation = r.observation := by
  obtain ⟨-, ho⟩ | ⟨t, ht, -⟩ := r.perform_cases i
  · exact ho
  · exact absurd ht (h t)

/-- Settles O24: a next state drives its event's ports, which join the observation; a step without one shows nothing, and a fault stops
the run. -/
theorem onlyPerformedEventsAreObserved : Obligations.OnlyPerformedEventsAreObserved := by
  refine ⟨fun r i t hf he => ?_, fun r i => Run.observation_perform_of_no_next, fun r => ?_, fun r tr hf => ?_⟩
  · obtain ⟨result, card, ho, -⟩ := out_of_exec_next he
    refine ⟨_, ho, rfl, ?_⟩
    rw [Run.perform_of_next hf he, ho, Option.toList_some]
  · exact Run.observation_perform_of_no_next nofun
  · obtain ⟨f, hf⟩ := Option.ne_none_iff_exists'.mp hf
    exact Run.performAll_of_some_fault hf tr

-- The events an agent may issue (R72, R200).

/-- No event but the reserved code is refused (R73, R200). -/
theorem eq_reserved_of_exec_refused {i : Instr} {s : State} {why : Refusal} (h : exec i s = .refused why) : i = .reserved := by
  cases i with
  | reserved => rfl
  | nop | pulse0 | pulse1 | tick | ready | reset => cases h
  | decode =>
    cases hs : s.snapshot with
    | ok bits => rw [exec_decode_of_ok hs] at h; cases h
    | error k => rw [exec_decode_of_error hs] at h; cases h

/-- Under the invariant every event the block may be sent answers a next state (R200). -/
theorem Inv.exists_exec_next {i : Instr} {s : State} (h : Inv s) (hi : i.wellFormed = true) : ∃ t, exec i s = .next t := by
  cases he : exec i s with
  | next t => exact ⟨t, rfl⟩
  | refused why =>
    obtain rfl := eq_reserved_of_exec_refused he
    cases hi
  | fault f => exact absurd he (h.exec_ne_fault i f)

/-- An event the block may be sent records nothing against a run, and is performed in its step. -/
theorem Run.perform_of_wellFormed {r : Run} {i : Instr} (h : Inv r.state) (hr : r.clean) (hi : i.wellFormed = true) :
    (r.perform i).clean ∧ (r.perform i).observation.map (·.event) = r.observation.map (·.event) ++ [i] := by
  obtain ⟨t, he⟩ := h.exists_exec_next hi
  obtain ⟨result, card, ho, -⟩ := out_of_exec_next he
  obtain ⟨hrefusal, hf⟩ := hr
  rw [Run.perform_of_next hf he]
  exact ⟨⟨hrefusal, hf⟩, by simp [ho]⟩

/-- A trace the block may be sent records nothing against a run, and its events are performed in order. -/
theorem Run.performAll_of_wellFormed {tr : List Instr} (htr : ∀ i ∈ tr, i.wellFormed = true) : ∀ {r : Run}, Inv r.state → r.clean →
    (r.performAll tr).clean ∧ (r.performAll tr).observation.map (·.event) = r.observation.map (·.event) ++ tr := by
  induction tr with
  | nil => exact fun _ hr => ⟨hr, (List.append_nil _).symm⟩
  | cons i tr ih =>
    intro r h hr
    obtain ⟨hi, htr⟩ := List.forall_mem_cons.mp htr
    obtain ⟨hclean, hfirst⟩ := Run.perform_of_wellFormed h hr hi
    obtain ⟨hclean, hrest⟩ := ih htr (Run.perform_inv h i) hclean
    rw [hfirst, List.append_assoc] at hrest
    exact ⟨hclean, hrest⟩

/-- Settles O34: the invariant holds from power-on, under it only the reserved code stops, and nobody issues that. -/
theorem noAgentsEventStopsTheBlock : Obligations.NoAgentsEventStopsTheBlock :=
  fun _ _ _ _ _ hc htr => Run.performAll_of_wellFormed htr.wellFormed (inv_powerOn hc []) ⟨rfl, rfl⟩

-- A pulse beside a DECODE or a TICK (R212, R213).

/-- Settles O57: the pulse joins the frame that the DECODE emits, or the empty one that it leaves, which has room for it (R8). -/
theorem pulseAndDecodeInEitherOrder : Obligations.PulseAndDecodeInEitherOrder := by
  intro b s bits h hbits
  have hstart := h.reached_start hbits
  have hp := (hstart.pulse b).decode
  have hq := hstart.decode.pulse b
  obtain ⟨hcap, -⟩ := Config.limits_of_wellFormed h.params
  rw [List.nil_append, List.take_of_length_le (by rw [List.length_singleton]; omega)] at hq
  exact ⟨hp.clean, hp.cards_eq, hp.snapshot_eq, hq.clean, hq.cards_eq, hq.snapshot_eq⟩

/-- Settles O58: the pulse opens the window of `T_WAIT >= 1` ticks (R8) whatever came before it, and a TICK after it takes WD down by one;
by INV2 FIN is 1 exactly at WD = 0. -/
theorem pulseAndTickInEitherOrder : Obligations.PulseAndTickInEitherOrder := by
  intro b s h
  obtain ⟨bits, hbits⟩ := h.snapshot
  have hstart := h.reached_start hbits
  have ht := hstart.tick.pulse b
  have hu := (hstart.pulse b).tick
  obtain ⟨-, htWait, -⟩ := Config.limits_of_wellFormed h.params
  refine ⟨ht.wd_eq, ?_, ?_, ?_, ht.snapshot_eq.trans hu.snapshot_eq.symm⟩
  · refine Bool.eq_false_iff.mpr fun hfin => ?_
    have hzero := ht.inv.fin_iff.mp hfin
    rw [ht.wd_eq] at hzero
    omega
  · exact (congrArg (· + 1) hu.wd_eq).trans (Nat.sub_add_cancel htWait)
  · refine hu.inv.fin_iff.trans ?_
    rw [hu.wd_eq]
    omega

end Sys2Proof.Machine

/-! Proofs for `70_reset_and_hazards.md`: the reset configuration, frames that stray bits, a short gap or a late pulse lengthen, and the
infinite runs of the agents' events. -/

namespace Sys2Proof.Machine

-- Power-on and RESET (R230).

/-- Settles O21: power-on has RESET's values in the six elements and no ports driven; its frame is too short to be ready. -/
theorem powerOnIsTheResetConfiguration : Obligations.PowerOnIsTheResetConfiguration := by
  have hpowerOn (c : Config) (tr : List EventCode) : ResetBlock (State.powerOn c tr) :=
    ⟨rfl, Memory.read_nil, rfl, rfl, rfl, rfl⟩
  exact ⟨fun c tr => ⟨hpowerOn c tr, State.not_ready_of_short (by rw [State.powerOn_count]; decide), rfl⟩, hpowerOn _ _,
    fun s => ⟨_, exec_reset s, ResetBlock.drive_resetBlock ..⟩⟩

-- Frames longer than one card (R232, R233, R234).

theorem frameRecord_of_length_ne {bits : List Bool} (h : bits.length ≠ 26) : frameRecord bits = zeroRecord bits.length :=
  if_neg h

/-- A transmission and the window after it: the next poll decodes what it makes of the frame it found (R122, R124). -/
theorem Run.Reached.transmission {r : Run} {c : Config} {frame : List Bool} {wd : Nat} {results : List Bool} {cards : List CardRecord}
    (h : r.Reached c frame wd results cards) (bits : List Bool) (hlen : 26 ≤ (frame ++ bits).length)
    (hcap : (frame ++ bits).length ≤ c.cap) :
    (r.performItems [.send bits, .wait, .poll]).Reached c [] 0 (results ++ [true]) (cards ++ [frameRecord (frame ++ bits)]) := by
  have hsent := h.send bits
  rw [List.take_of_length_le hcap] at hsent
  exact hsent.wait.poll_of_ready zero_le_one hlen

/-- Settles O51: the stray bits are too few for the poll after them, and the card joins them; its decode leaves an empty frame to the
next card. -/
theorem strayBitsSpoilExactlyOneCard : Obligations.StrayBitsSpoilExactlyOneCard := by
  intro c stray card next n hc hcard hnext hpos hshort hcap r
  obtain ⟨hmin, -⟩ := Config.limits_of_wellFormed hc
  have hstray := (Run.reached_powerOn hc).send stray
  rw [List.nil_append, List.take_of_length_le (by omega)] at hstray
  have hpolled := (hstray.ticks n).poll_of_not_ready (by omega)
  have hlong : (stray ++ card).length = 26 + stray.length := by rw [List.length_append, hcard, Nat.add_comm]
  have hspoiled := hpolled.transmission card (by omega) (by omega)
  rw [frameRecord_of_length_ne (by omega), hlong] at hspoiled
  have hdone : r.Reached .. := hspoiled.transmission next hnext.ge (hnext.trans_le hmin)
  exact ⟨hdone.clean, hdone.results_eq, hdone.cards_eq⟩

/-- Settles O52: in the gap the first card's window still runs, so READY returns 0 and the second card joins its frame. -/
theorem closeTransmissionsMerge : Obligations.CloseTransmissionsMerge := by
  intro c first second n hc hfirst hsecond hgap hcap r
  have hsent := (Run.reached_powerOn hc).send first
  have hne : first ≠ [] := by rintro rfl; cases hfirst
  rw [List.nil_append, List.take_of_length_le (by omega), if_neg hne] at hsent
  have hwaiting := (hsent.ticks n).ready
  rw [decide_eq_false (by omega)] at hwaiting
  have hlong : (first ++ second).length = 52 := by rw [List.length_append, hfirst, hsecond]
  have hdone : r.Reached .. := hwaiting.transmission second (by omega) (by omega)
  rw [frameRecord_of_length_ne (by omega), hlong] at hdone
  exact ⟨hdone.clean, hdone.results_eq, hdone.cards_eq⟩

/-- Settles O59: READY saw the frame at WD = 0; the pulse adds its bit up to capacity, and the DECODE emits that frame's record. -/
theorem pulseBetweenReadyAndDecodeSpoilsTheCard : Obligations.PulseBetweenReadyAndDecodeSpoilsTheCard := by
  intro b s bits h hready hbits r
  have hstart := h.reached_start hbits
  have hsaw := hstart.ready
  rw [← hstart.ready_eq, Run.start_state, hready] at hsaw
  have hdone : r.Reached .. := (hsaw.pulse b).decode
  refine ⟨hdone.clean, hdone.results_eq, hdone.cards_eq, fun hcount hroom => ?_⟩
  have hlong : (bits ++ [b]).length = 27 := by
    rw [List.length_append, State.length_of_snapshot hbits, hcount, List.length_singleton]
  rw [hdone.cards_eq, List.take_of_length_le (hlong.trans_le hroom), frameRecord_of_length_ne (by omega), hlong, List.nil_append]

-- The infinite runs of the agents' events (R240).

theorem runAfter_eq_runFrom (s : State) (tr : Nat → Instr) (n : Nat) : runAfter s tr n = runFrom s (firstEvents tr n) := by
  induction n with
  | zero => rfl
  | succ n ih => rw [runAfter_succ, firstEvents_succ, runFrom_concat, ih]

/-- A code placed as the next one is performed as its event (R70). -/
theorem step_withFetchWord_encode (s : State) (i : Instr) : step (s.withFetchWord 3 (encode i).toNat) = exec i s := by
  rw [step_withFetchWord, Nat.mod_eq_of_lt (encode i).isLt, BitVec.ofNat_toNat, BitVec.setWidth_eq, decode_encode]

section
variable {who : Nat → Agent} {tr : Nat → Instr}

theorem AgentsTrace.interleaving (h : AgentsTrace who tr) (n : Nat) :
    let tagged := (List.range n).map fun k => (who k, tr k)
    Interleaving (issuedBy .producer tagged) (issuedBy .consumer tagged) (issuedBy .host tagged) (firstEvents tr n) := by
  intro tagged
  have hmay : ∀ x ∈ tagged, x.1.mayIssue x.2 = true := by
    intro x hx
    obtain ⟨k, -, rfl⟩ := List.mem_map.mp hx
    exact h k
  have hevents : tagged.map (·.2) = firstEvents tr n := List.map_map
  rw [← hevents]
  exact interleaving_of_tagged tagged hmay

variable {s : State} (hs : Inv s) (h : AgentsTrace who tr)
include hs h

theorem AgentsTrace.clean_runAfter (n : Nat) : (runAfter s tr n).clean := by
  induction n with
  | zero => exact ⟨rfl, rfl⟩
  | succ n ih =>
    obtain ⟨hclean, -⟩ := Run.perform_of_wellFormed (inv_runAfter hs tr n) ih (Agent.wellFormed_of_mayIssue (h n))
    exact hclean

/-- Every step of an agents' trace is performed: its event takes the run's state to its next one (R200). -/
theorem AgentsTrace.exec_runAfter (n : Nat) :
    exec (tr n) (runAfter s tr n).state = .next (runAfter s tr (n + 1)).state := by
  obtain ⟨t, he⟩ := (inv_runAfter hs tr n).exists_exec_next (Agent.wellFormed_of_mayIssue (h n))
  rw [he, runAfter_succ, Run.perform_of_next (fault_runAfter hs tr n) he]

/-- What a step of an agents' trace shows of its event and of the level before it; a DECODE step's record is `observedAt_decode`'s. -/
theorem AgentsTrace.observedAt_eq (n : Nat) : ∃ card,
    observedAt s tr n = some ⟨tr n, (runAfter s tr n).state.ready,
      if tr n = .ready then some (runAfter s tr n).state.ready else none, card⟩ ∧ (tr n ≠ .decode → card = none) := by
  have he := h.exec_runAfter hs n
  obtain ⟨result, card, hout, hcard⟩ := out_of_exec_next he
  have hresult := result_of_exec_next he
  rw [hout, Option.bind_some] at hresult
  refine ⟨card, ?_, hcard⟩
  rw [observedAt, Run.shows_of_next (fault_runAfter hs tr n) he, hout, ← hresult]

theorem AgentsTrace.observation_runAfter (n : Nat) :
    (runAfter s tr n).observation.map some = (List.range n).map (observedAt s tr) := by
  induction n with
  | zero => rfl
  | succ n ih =>
    obtain ⟨card, hobserved, -⟩ := h.observedAt_eq hs n
    have hshown : (runAfter s tr n).shows (tr n) = some _ := hobserved
    rw [runAfter_succ, Run.observation_perform, hshown, List.map_append, ih, List.range_succ, List.map_append, List.map_singleton,
      hobserved]
    rfl

end

/-- Settles O36: both runs perform one more event at each step; an agents' trace is the list of its turns, and from power-on each of its
events answers the next state, in the machine's step as in the run. -/
theorem infiniteRunIsItsFiniteRuns : Obligations.InfiniteRunIsItsFiniteRuns := by
  refine ⟨runAfter_eq_runFrom, fun who tr n h => h.interleaving n, fun c who tr n hc h => ?_⟩
  rw [step_withFetchWord_encode]
  exact h.exec_runAfter (inv_powerOn hc []) n

/-- Settles O37: nobody issues the reserved code, so each step is performed and shows its event's ports; under the invariant a DECODE's
are the record of the frame. -/
theorem infiniteRunShowsEveryStep : Obligations.InfiniteRunShowsEveryStep := by
  intro c who tr n hc h r
  have hinv := inv_powerOn hc []
  obtain ⟨card, hshown, hcard⟩ := h.observedAt_eq hinv n
  refine ⟨h.clean_runAfter hinv n, h.observation_runAfter hinv n, _, hshown, rfl, rfl, rfl, hcard, fun hd => ?_⟩
  obtain ⟨bits, hbits⟩ := (inv_runAfter hinv tr n).snapshot
  obtain ⟨hdecode, -⟩ := observedAt_decode hinv hd hbits
  exact ⟨bits, hbits, congrArg Ports.card (Option.some.inj (hshown.symm.trans hdecode))⟩

end Sys2Proof.Machine
